-- ==== Sys2Proof/Word.lean ====
section
/-! DEFINITION. The word types of the datapath: the widths that 00_scope.md rules R5 and R6 fix. Every value of the
hardware is an unsigned bit vector of a stated width (R7, R72); `b[hi:lo]` of the spec is `BitVec.extractLsb hi lo`,
and the concatenation of the spec (first operand more significant, R8) is `++`. -/

namespace Sys2Proof

/-- A block, a byte of a message or a subkey: 8 bits (R5). -/
abbrev Byte := BitVec 8

/-- A half-block: 4 bits (R5). -/
abbrev Nibble := BitVec 4

/-- A key-sized operand field of the command word: 16 bits, of which a key uses the low 10 (R6, R31). -/
abbrev KeyField := BitVec 16

/-- A command word: 48 bits (R6, R30). -/
abbrev Cmd := BitVec 48

/-- A response word: 32 bits (R6, R32). -/
abbrev Resp := BitVec 32

end Sys2Proof
end

