-- ==== Sys2Proof/Syntax.lean ====
section
/-! DEFINITION. The commands of the datapath, one constructor for each row of spec/opcode_table.json (R33), with the
operands that the textual form of 30_encoding.md rule R36 writes, each as wide as the field of the command word it
fills (R30). The masking of a wide field is the meaning's (R31), not the decoder's. -/

namespace Sys2Proof

/-- The sixteen mnemonics of rule R33, in the table's order. -/
inductive Mnemonic where
  | permIp | permIpinv | permPc1 | permPc2 | permE | permP
  | sbox0 | sbox1
  | ksched
  | ffunc | fround
  | encb | decb
  | cstart | cenc | cdec
  deriving DecidableEq, Repr

/-- A command: `d`, `a`, `b` are the fields `cmd[7:0]`, `cmd[23:8]`, `cmd[39:24]` (R30). A field the command ignores is no
operand of it (R31). -/
inductive Instr where
  | permIp (d : Byte)
  | permIpinv (d : Byte)
  | permPc1 (a : KeyField)
  | permPc2 (a : KeyField)
  | permE (d : Byte)
  | permP (d : Byte)
  | sbox0 (d : Byte)
  | sbox1 (d : Byte)
  | ksched (a : KeyField)
  | ffunc (d : Byte) (a : KeyField)
  | fround (d : Byte) (a : KeyField)
  | encb (d : Byte) (a : KeyField)
  | decb (d : Byte) (a : KeyField)
  | cstart
  | cenc (d : Byte) (a b : KeyField)
  | cdec (d : Byte) (a b : KeyField)
  deriving DecidableEq, Repr

/-- The mnemonic of a command. -/
def Instr.mnemonic : Instr → Mnemonic
  | .permIp _ => .permIp
  | .permIpinv _ => .permIpinv
  | .permPc1 _ => .permPc1
  | .permPc2 _ => .permPc2
  | .permE _ => .permE
  | .permP _ => .permP
  | .sbox0 _ => .sbox0
  | .sbox1 _ => .sbox1
  | .ksched _ => .ksched
  | .ffunc _ _ => .ffunc
  | .fround _ _ => .fround
  | .encb _ _ => .encb
  | .decb _ _ => .decb
  | .cstart => .cstart
  | .cenc _ _ _ => .cenc
  | .cdec _ _ _ => .cdec

/-- The operands that a command is written with in the textual form of rule R36. -/
structure OperandForm where
  d : Bool
  a : Bool
  b : Bool
  deriving DecidableEq, Repr

/-- The textual form of each command (R36): which of the fields `d`, `a`, `b` it writes. -/
def Mnemonic.form : Mnemonic → OperandForm
  | .permIp | .permIpinv | .permE | .permP | .sbox0 | .sbox1 => ⟨true, false, false⟩
  | .permPc1 | .permPc2 | .ksched => ⟨false, true, false⟩
  | .ffunc | .fround | .encb | .decb => ⟨true, true, false⟩
  | .cstart => ⟨false, false, false⟩
  | .cenc | .cdec => ⟨true, true, true⟩

/-- A line of the textual form: one command with the numbers written for its fields (0 for a field not written, R36),
or one of the two pseudo-commands of rule R37. -/
inductive AsmLine where
  | command (m : Mnemonic) (d a b : Nat)
  | encryptMessage (k1 k2 : Nat) (p : List Nat)
  | decryptMessage (k1 k2 : Nat) (c : List Nat)
  deriving DecidableEq, Repr

end Sys2Proof
end

