-- ==== Sys2Proof/WellFormed.lean ====
section
/-! DEFINITION. The well-formedness checks. An `Instr` needs none: the widths of its operands are in their types, so
every value of it is a command (R31, R35). What can be ill formed is a line of the textual form (R36) and a permutation
vector (R40, R47 item 4); a vector carries the proof of its check, so that a malformed one cannot be built (U1, D21). -/

namespace Sys2Proof

/-- An operand of the textual form fits its field of `width` bits (R36: one that does not is an assembler error). -/
def fitsField (width n : Nat) : Bool :=
  decide (n < 2 ^ width)

/-- A line of the textual form is well formed (R36, R37): every operand fits its field, and a field that the command's
form does not write is zero. -/
def AsmLine.wellFormed : AsmLine → Bool
  | .command m d a b =>
      fitsField 8 d && fitsField 16 a && fitsField 16 b &&
        (m.form.d || d == 0) && (m.form.a || a == 0) && (m.form.b || b == 0)
  | .encryptMessage k1 k2 p => fitsField 16 k1 && fitsField 16 k2 && p.all (fitsField 8)
  | .decryptMessage k1 k2 c => fitsField 16 k1 && fitsField 16 k2 && c.all (fitsField 8)

/-- Every entry of a permutation vector is a bit number of a window of `w` bits, counted from 1 (R40). -/
def entriesInRange (w : Nat) (entries : List Nat) : Bool :=
  entries.all fun j => decide (1 ≤ j ∧ j ≤ w)

/-- A permutation vector of `n` entries over a window of `w` bits (R40), well formed by construction (R47 item 4). The
entries are the spec's own: bit numbers from 1, the first for the most significant output bit. -/
structure PermVector (w n : Nat) where
  entries : Vector Nat n
  inRange : entriesInRange w entries.toList = true
  deriving DecidableEq, Repr

end Sys2Proof
end

