-- ==== Sys2Proof/Decode.lean ====
section
/-! DEFINITION. The encoding of commands: the fields of the command word (R30), the opcode map (R33), the decoder, which
looks at `op` only and rejects the 240 reserved opcodes by name (R33, R34), the encoder, which assembles fields not
written as zero (R36), and the order of bytes where a word is carried over a byte-wide channel (R22 item 3). -/

namespace Sys2Proof

/-- `cmd.op = cmd[47:40]` (R30). -/
def cmdOp (w : Cmd) : BitVec 8 := w.extractLsb 47 40

/-- `cmd.b = cmd[39:24]` (R30). -/
def cmdB (w : Cmd) : KeyField := w.extractLsb 39 24

/-- `cmd.a = cmd[23:8]` (R30). -/
def cmdA (w : Cmd) : KeyField := w.extractLsb 23 8

/-- `cmd.d = cmd[7:0]` (R30). -/
def cmdD (w : Cmd) : Byte := w.extractLsb 7 0

/-- The command word with the given fields, `op` most significant (R30). -/
def cmdWord (op : BitVec 8) (b a : KeyField) (d : Byte) : Cmd := op ++ b ++ a ++ d

/-- The opcode map (R33): the high digit is the unit, the low digit the operation within it. -/
def Mnemonic.opcode : Mnemonic → BitVec 8
  | .permIp => 0x10#8
  | .permIpinv => 0x11#8
  | .permPc1 => 0x12#8
  | .permPc2 => 0x13#8
  | .permE => 0x14#8
  | .permP => 0x15#8
  | .sbox0 => 0x20#8
  | .sbox1 => 0x21#8
  | .ksched => 0x30#8
  | .ffunc => 0x40#8
  | .fround => 0x41#8
  | .encb => 0x50#8
  | .decb => 0x51#8
  | .cstart => 0x60#8
  | .cenc => 0x61#8
  | .cdec => 0x62#8

/-- All sixteen mnemonics, in the order of the table. -/
def Mnemonic.all : List Mnemonic :=
  [.permIp, .permIpinv, .permPc1, .permPc2, .permE, .permP, .sbox0, .sbox1, .ksched, .ffunc, .fround, .encb, .decb,
    .cstart, .cenc, .cdec]

/-- The mnemonic an opcode selects, if it is not reserved (R33). -/
def Mnemonic.ofOpcode (op : BitVec 8) : Option Mnemonic :=
  Mnemonic.all.find? fun m => m.opcode == op

/-- The command of a mnemonic with the given fields; a field that is no operand of it is ignored (R31, R35). -/
def Mnemonic.instr (m : Mnemonic) (d : Byte) (a b : KeyField) : Instr :=
  match m with
  | .permIp => .permIp d
  | .permIpinv => .permIpinv d
  | .permPc1 => .permPc1 a
  | .permPc2 => .permPc2 a
  | .permE => .permE d
  | .permP => .permP d
  | .sbox0 => .sbox0 d
  | .sbox1 => .sbox1 d
  | .ksched => .ksched a
  | .ffunc => .ffunc d a
  | .fround => .fround d a
  | .encb => .encb d a
  | .decb => .decb d a
  | .cstart => .cstart
  | .cenc => .cenc d a b
  | .cdec => .cdec d a b

/-- Why bits are no command: a reserved opcode (R34), or a byte string that is not one command long (R23). -/
inductive DecodeError where
  | reservedOpcode (op : BitVec 8)
  | notSixBytes (length : Nat)
  deriving DecidableEq, Repr

/-- The decoder: total on every 48-bit word, it looks at `op` only (R33) and rejects a reserved opcode by name (R34). -/
def decode (w : Cmd) : Except DecodeError Instr :=
  match Mnemonic.ofOpcode (cmdOp w) with
  | some m => .ok (m.instr (cmdD w) (cmdA w) (cmdB w))
  | none => .error (.reservedOpcode (cmdOp w))

/-- The encoder (R30, R33); fields the textual form does not write are zero (R36). -/
def encode : Instr → Cmd
  | .permIp d => cmdWord Mnemonic.permIp.opcode 0 0 d
  | .permIpinv d => cmdWord Mnemonic.permIpinv.opcode 0 0 d
  | .permPc1 a => cmdWord Mnemonic.permPc1.opcode 0 a 0
  | .permPc2 a => cmdWord Mnemonic.permPc2.opcode 0 a 0
  | .permE d => cmdWord Mnemonic.permE.opcode 0 0 d
  | .permP d => cmdWord Mnemonic.permP.opcode 0 0 d
  | .sbox0 d => cmdWord Mnemonic.sbox0.opcode 0 0 d
  | .sbox1 d => cmdWord Mnemonic.sbox1.opcode 0 0 d
  | .ksched a => cmdWord Mnemonic.ksched.opcode 0 a 0
  | .ffunc d a => cmdWord Mnemonic.ffunc.opcode 0 a d
  | .fround d a => cmdWord Mnemonic.fround.opcode 0 a d
  | .encb d a => cmdWord Mnemonic.encb.opcode 0 a d
  | .decb d a => cmdWord Mnemonic.decb.opcode 0 a d
  | .cstart => cmdWord Mnemonic.cstart.opcode 0 0 0
  | .cenc d a b => cmdWord Mnemonic.cenc.opcode b a d
  | .cdec d a b => cmdWord Mnemonic.cdec.opcode b a d

/-- The bytes of a command word on a byte-wide channel, most significant first: `op`, `b[15:8]`, `b[7:0]`, `a[15:8]`,
`a[7:0]`, `d` (R22 item 3). -/
def cmdToBytes (w : Cmd) : List Byte :=
  [w.extractLsb 47 40, w.extractLsb 39 32, w.extractLsb 31 24, w.extractLsb 23 16, w.extractLsb 15 8, w.extractLsb 7 0]

/-- The command word that six bytes carry (R22 item 3). The hardware is always given a whole word (R23): any other number of
bytes is rejected (notes/assumptions/11.md). -/
def cmdOfBytes : List Byte → Except DecodeError Cmd
  | [op, bHi, bLo, aHi, aLo, d] => .ok (op ++ bHi ++ bLo ++ aHi ++ aLo ++ d)
  | bytes => .error (.notSixBytes bytes.length)

/-- The decoder on bytes: total on every byte string. -/
def decodeBytes (bytes : List Byte) : Except DecodeError Instr :=
  match cmdOfBytes bytes with
  | .ok w => decode w
  | .error e => .error e

/-- The bytes of a response word on a byte-wide channel, most significant first (R22 item 3). -/
def respToBytes (r : Resp) : List Byte :=
  [r.extractLsb 31 24, r.extractLsb 23 16, r.extractLsb 15 8, r.extractLsb 7 0]

/-- The 48-bit command word of `nbits` bits numbered as spec/opcode_table.json numbers them. A row of the table is one word of
48 bits with `op` in bits 47 to 40, so the table's numbering is that of rule R30 (notes/assumptions/10.md). -/
def tableWord (nbits w : Nat) : Cmd := BitVec.ofNat 48 (w % 2 ^ nbits)

/-- What the decoder reads from a row's bits; no command is longer than 48 bits (R30). -/
def decodeTableWord (nbits w : Nat) : Option Instr :=
  if nbits ≤ 48 then (decode (tableWord nbits w)).toOption else none

end Sys2Proof
end

