-- ==== Sys2Proof/Config.lean ====
section
/-! DEFINITION. What an implementation fixes (92_eei_decisions.md, last paragraph). The latencies of rule R108 are the
other parameters the spec names; no rule depends on them and they are left out (notes/assumptions/5.md). -/

namespace Sys2Proof

/-- The parameters a model may take as arguments. `s1_33` is the entry of S1 at row 3, column 3, which no evidence
confirms: 2 bits, default 3 (R56, D12, U5). Every function whose value depends on the entry takes a `Config`, so that a
claim can be made for every value of it (notes/assumptions/4.md). -/
structure Config where
  s1_33 : BitVec 2 := 3#2
  deriving DecidableEq, Repr

end Sys2Proof
end

