-- ==== Sys2Proof/Machine/Tables.lean ====
section
/-! DEFINITION. The ten constants of the hardware (10_state.md R12), as definitions and not as state: the six permutation
vectors (R41 to R46), the two substitution boxes (R55, R56), the rotation sequence (R61) and the initialisation value
(R83). The entries are the spec's (notes/assumptions/8.md). -/

namespace Sys2Proof.Machine

/-- The initial permutation (R41). -/
def IP : PermVector 8 8 := ⟨#v[2, 6, 3, 1, 4, 8, 5, 7], by decide⟩

/-- The inverse initial permutation (R42). -/
def IPINV : PermVector 8 8 := ⟨#v[4, 1, 3, 5, 7, 2, 8, 6], by decide⟩

/-- The first key permutation (R43). -/
def PC1 : PermVector 10 10 := ⟨#v[3, 5, 2, 7, 4, 10, 1, 9, 8, 6], by decide⟩

/-- The second key permutation, a selection (R44). -/
def PC2 : PermVector 10 8 := ⟨#v[6, 3, 7, 4, 8, 5, 10, 9], by decide⟩

/-- The expansion (R45): entries repeat. -/
def E : PermVector 4 8 := ⟨#v[4, 1, 2, 3, 2, 3, 4, 1], by decide⟩

/-- The output permutation of the round function (R46). -/
def P : PermVector 4 4 := ⟨#v[2, 4, 3, 1], by decide⟩

/-- A substitution box: a 4 by 4 table of 2-bit values, row first (R5, R8). -/
abbrev SBox := Vector (Vector (BitVec 2) 4) 4

/-- The box S0 (R55). -/
def S0 : SBox :=
  #v[#v[1, 0, 3, 2],
     #v[3, 2, 1, 0],
     #v[0, 2, 1, 3],
     #v[3, 1, 3, 2]]

/-- The box S1 (R56); its last entry is the parameter `s1_33` (D12). -/
def S1 (cfg : Config) : SBox :=
  #v[#v[0, 1, 2, 3],
     #v[2, 0, 1, 3],
     #v[3, 0, 1, 0],
     #v[2, 1, 0, cfg.s1_33]]

/-- The rotation counts of the four rounds, cumulative (R61). -/
def ROT : Vector Nat 4 := #v[1, 2, 2, 2]

/-- The initialisation value of the chained mode (R83). -/
def IV : Byte := 0x9C#8

/-- The machine's configuration: `s1_33` at its default 3 (R56, D12; DESIGN CHOICE, notes/assumptions/4.md). -/
def config : Config := { s1_33 := 3#2 }

end Sys2Proof.Machine
end

