-- ==== Sys2Proof/Machine/State.lean ====
section
/-! DEFINITION. The state of the datapath. CHAIN is the only architectural register (R10, R17); the output ports that hold
a value between steps (R38) and the values the host drives on the input ports (R38, R109) stand beside it. There are no
general registers, no program counter, no flags, no memory and no hidden state (R14 to R19). -/

namespace Sys2Proof.Machine

/-- What the datapath presents on `err` and `resp` in a step in which `resp_valid` is 1 (R32, R38). -/
structure Response where
  err : Bool
  resp : Resp
  deriving DecidableEq, Repr

/-- What the host drives on the input ports in one step: `rst`, and a command word when `cmd_valid` is 1 (R38, R109). -/
structure PortInput where
  rst : Bool
  cmd : Option Cmd
  deriving DecidableEq, Repr

/-- The state of the datapath and of its ports. -/
structure State where
  /-- The feedback register of the chained double cipher (R10). Every value is legal. -/
  chain : Byte
  /-- The output port `cmd_ready` (R38): a command is issued only where it is true (R104). -/
  cmdReady : Bool
  /-- The output ports `resp_valid`, `err` and `resp` (R38): `none` is `resp_valid` = 0. -/
  response : Option Response
  /-- The model's own field: what the host is going to drive on the input ports, the next step's values first; an
  exhausted list drives nothing (DESIGN CHOICE, notes/assumptions/2.md). -/
  inputs : List PortInput
  deriving DecidableEq, Repr

/-- The one fault of the hardware (R90, R99). -/
inductive Fault where
  /-- IllegalCommand, raised by the decoder (`step`) on a command word with a reserved opcode (R34, R90), and by no meaning.
  `presented` is the state in which the datapath presents the fault's response and goes on (R90, R95): CHAIN as it was,
  `err` = 1, `resp` = 0. Safe: the outcome stops a run of `Host.Core.run` where the hardware goes on; `session` goes on
  from `presented` (notes/assumptions/3.md). -/
  | illegalCommand (presented : State)
  deriving DecidableEq, Repr

/-- Why a command has no meaning. -/
inductive Refusal where
  /-- Raised by an arm of `exec` whose command has no meaning yet. Safe. No arm raises it: all sixteen are modelled. -/
  | notModelled (mnemonic : String)
  deriving DecidableEq, Repr

/-- The outcome of a command. -/
abbrev Result := Host.Outcome State Fault Refusal

/-- The machine right after a reset edge (R11, R100, R101): CHAIN = 0x9C, `cmd_ready` = 0, `resp_valid` = 0. The host
drives nothing (notes/assumptions/2.md); how a program comes to run is notes/assumptions/7.md. -/
def State.reset : State where
  chain := IV
  cmdReady := false
  response := none
  inputs := []

end Sys2Proof.Machine
end

