-- ==== Sys2Proof/Machine/Flags.lean ====
section
/-! DEFINITION. The hardware has no flags (R16). The one status bit is `err`, which is part of each response and is not
stored beyond it (R16, R32): this file holds the responses. -/

namespace Sys2Proof.Machine

/-- A result extended with zero bits on the left to the width of a response (R8, R32). -/
def zext32 {w : Nat} (result : BitVec w) : Resp := result.setWidth 32

/-- The response of a step that does not fault: `err` = 0 and the result zero-extended (R32). -/
def Response.ok {w : Nat} (result : BitVec w) : Response := ⟨false, zext32 result⟩

/-- The response of a step that faults: `err` = 1 and `resp` = 0 (R32, R90). -/
def Response.illegal : Response := ⟨true, 0#32⟩

end Sys2Proof.Machine
end

