-- ==== Sys2Proof/Machine/Ops.lean ====
section
/-! DEFINITION. The operations on the state that the step and the meanings share: writing CHAIN, presenting a response,
the reset edge and the start-up edge (R100), a step without a command (R38), and taking the one fault (R90). -/

namespace Sys2Proof.Machine

/-- `CHAIN <- v` (R8). -/
def State.setChain (s : State) (v : Byte) : State := { s with chain := v }

/-- `resp <- zext_32(result)`, `err` = 0 (R8, R32). The response of the step before is gone (R107). -/
def State.respond (s : State) {w : Nat} (result : BitVec w) : State := { s with response := some (Response.ok result) }

/-- A rising edge with `rst` = 1 (R100). A command that is presented there is not issued (R93). -/
def State.resetEdge (s : State) : State := { s with chain := IV, cmdReady := false, response := none }

/-- The first rising edge with `rst` = 0 after a reset: the datapath accepts commands from here on (R100). -/
def State.startUp (s : State) : State := { s with cmdReady := true, response := none }

/-- A step in which the host presents no command: `resp_valid` was 1 for one step only (R38, R107). -/
def State.idle (s : State) : State := { s with response := none }

/-- The state in which the datapath presents the response of IllegalCommand: nothing else has changed (R90). -/
def State.presentFault (s : State) : State := { s with response := some Response.illegal }

/-- `raise IllegalCommand` (R8, R90): the fault outcome of the step. There is no trap entry (R94). -/
def State.raiseIllegal (s : State) : Result := .fault (.illegalCommand s.presentFault)

/-- What the datapath goes on from after a fault's response (R95): it is ready for the next command as after any other
response. There is no return command (R95). -/
def Fault.resume : Fault → State
  | .illegalCommand presented => presented

end Sys2Proof.Machine
end

