-- ==== Sys2Proof/Machine/BitPermutation.lean ====
section
/-! DEFINITION. bit_permutation_unit (40_bit_permutation_unit.md): the generic function and the six commands that expose
its fixed uses. -/

namespace Sys2Proof.Machine

/-- `permute(v, T, W)` (R40): output bit number `i` is input bit number `T[i]` of the `W`-bit window, both counted from 1
at the most significant bit, that is `y[N-i] = v[W - T[i]]`. `v` may be wider than the window: its bits at positions `W` and
above are never read. -/
def permute {W N w : Nat} (T : PermVector W N) (v : BitVec w) : BitVec N :=
  (BitVec.ofBoolListBE (T.entries.toList.map fun j => v.getLsbD (W - j))).cast (by simp)

/-- PERM_IP (R48). -/
def execPermIp (d : Byte) (s : State) : Result := .next (s.respond (permute IP d))

/-- PERM_IPINV (R49). -/
def execPermIpinv (d : Byte) (s : State) : Result := .next (s.respond (permute IPINV d))

/-- PERM_PC1 (R50): reads `a[9:0]` only. -/
def execPermPc1 (a : KeyField) (s : State) : Result := .next (s.respond (permute PC1 a))

/-- PERM_PC2 (R51): reads `a[9:0]` only. -/
def execPermPc2 (a : KeyField) (s : State) : Result := .next (s.respond (permute PC2 a))

/-- PERM_E (R52): reads `d[3:0]` only. -/
def execPermE (d : Byte) (s : State) : Result := .next (s.respond (permute E d))

/-- PERM_P (R53): reads `d[3:0]` only. -/
def execPermP (d : Byte) (s : State) : Result := .next (s.respond (permute P d))

end Sys2Proof.Machine
end

