-- ==== Sys2Proof/Machine/KeySchedule.lean ====
section
/-! DEFINITION. key_schedule_generator (42_key_schedule_generator.md): four subkeys from a 10-bit key, and its command. -/

namespace Sys2Proof.Machine

/-- `rotl5(v, n)`: left circular rotation of a 5-bit half (R8). -/
def rotl5 (v : BitVec 5) (n : Nat) : BitVec 5 := v.rotateLeft n

/-- The two halves of the key schedule, `C` the more significant (R13, R60). -/
structure KeyHalves where
  C : BitVec 5
  D : BitVec 5
  deriving DecidableEq, Repr

/-- The halves of the permuted key: `C = t[9:5]`, `D = t[4:0]` (R60). -/
def KeyHalves.ofKey (key : BitVec 10) : KeyHalves :=
  let t := permute PC1 key
  ⟨t.extractLsb 9 5, t.extractLsb 4 0⟩

/-- One round's rotation of both halves, each on its own (R60, R61). -/
def KeyHalves.rotate (h : KeyHalves) (n : Nat) : KeyHalves := ⟨rotl5 h.C n, rotl5 h.D n⟩

/-- The subkey of a round: PC2 of `C ‖ D` (R60). -/
def KeyHalves.subkey (h : KeyHalves) : Byte := permute PC2 (h.C ++ h.D)

/-- The ordered sequence `SK[1]`, `SK[2]`, `SK[3]`, `SK[4]` (R60): exactly four. -/
abbrev RoundKeySchedule := Vector Byte 4

/-- `KSched(key)` (R60): the key is masked to 10 bits (R63), and each round rotates the halves that the round before left
(R61). -/
def kSched {w : Nat} (key : BitVec w) : RoundKeySchedule :=
  let KEY := key.setWidth 10
  let h1 := (KeyHalves.ofKey KEY).rotate ROT[0]
  let h2 := h1.rotate ROT[1]
  let h3 := h2.rotate ROT[2]
  let h4 := h3.rotate ROT[3]
  #v[h1.subkey, h2.subkey, h3.subkey, h4.subkey]

/-- `SK[1] ‖ SK[2] ‖ SK[3] ‖ SK[4]`, the first round's subkey in the most significant byte (R22 item 2, R62). -/
def RoundKeySchedule.pack (sk : RoundKeySchedule) : Resp := sk[0] ++ sk[1] ++ sk[2] ++ sk[3]

/-- KSCHED (R62). -/
def execKsched (a : KeyField) (s : State) : Result := .next (s.respond (kSched a).pack)

end Sys2Proof.Machine
end

