-- ==== Sys2Proof/Machine/Operands.lean ====
section
/-! DEFINITION. The operands of a command, cut from the fields of its word (30_encoding.md R31). Every bit that is not cut
is discarded, whatever its value. A 10-bit permutation input needs no cut of its own: `permute` reads the window only
(R40, R50, R51), and the masking of a key is part of the key schedule (R60, R63). -/

namespace Sys2Proof.Machine

/-- The 8-bit subkey in field `a`: `a[7:0]`. -/
def subkeyOf (a : KeyField) : Byte := a.extractLsb 7 0

/-- The right half, or the 4-bit input, in field `d`: `d[3:0]`. -/
def lowHalf (d : Byte) : Nibble := d.extractLsb 3 0

/-- The left half in field `d`: `d[7:4]`. -/
def highHalf (d : Byte) : Nibble := d.extractLsb 7 4

end Sys2Proof.Machine
end

