-- ==== Sys2Proof/Machine/SBoxSubstitution.lean ====
section
/-! DEFINITION. s_box_substitution (41_s_box_substitution.md): the indexing rule, the two boxes and their commands. -/

namespace Sys2Proof.Machine

/-- The row that a half selects: its outer two bits, `h[3]` the more significant (R54). -/
def sboxRow (h : Nibble) : BitVec 2 := h.extractLsb 3 3 ++ h.extractLsb 0 0

/-- The column that a half selects: its inner two bits, `h[2]` the more significant (R54). -/
def sboxCol (h : Nibble) : BitVec 2 := h.extractLsb 2 2 ++ h.extractLsb 1 1

/-- `Sbox(S, h) = S[row(h)][col(h)]` (R54): total. -/
def sboxLookup (S : SBox) (h : Nibble) : BitVec 2 :=
  (S[(sboxRow h).toNat]'(sboxRow h).isLt)[(sboxCol h).toNat]'(sboxCol h).isLt

/-- `Sbox0` (R55). -/
def sbox0 (h : Nibble) : BitVec 2 := sboxLookup S0 h

/-- `Sbox1` (R56). -/
def sbox1 (cfg : Config) (h : Nibble) : BitVec 2 := sboxLookup (S1 cfg) h

/-- SBOX0 (R57). -/
def execSbox0 (d : Byte) (s : State) : Result := .next (s.respond (sbox0 (lowHalf d)))

/-- SBOX1 (R58). -/
def execSbox1 (d : Byte) (s : State) : Result := .next (s.respond (sbox1 config (lowHalf d)))

end Sys2Proof.Machine
end

