-- ==== Sys2Proof/Machine/RoundEngine.lean ====
section
/-! DEFINITION. feistel_round_engine (43_feistel_round_engine.md): the round function, the Feistel round, and the two
commands that expose them. -/

namespace Sys2Proof.Machine

/-- `F(r, k)` (R67): expand, mix in the subkey, substitute (first half through S0, its output more significant), permute. -/
def roundF (cfg : Config) (r : Nibble) (k : Byte) : Nibble :=
  let T := permute E r ^^^ k
  let S := sbox0 (highHalf T) ++ sbox1 cfg (lowHalf T)
  permute P S

/-- A pair of half-blocks, left and right (R13). -/
structure Halves where
  L : Nibble
  R : Nibble
  deriving DecidableEq, Repr

/-- `Round(l, r, k) = (r, l xor F(r, k))` (R68): every round swaps. -/
def feistelRound (cfg : Config) (h : Halves) (k : Byte) : Halves := ⟨h.R, h.L ^^^ roundF cfg h.R k⟩

/-- The outputs of the round engine unit (R39). -/
structure RoundEngineOut where
  fo : Nibble
  lo : Nibble
  ro : Nibble
  deriving DecidableEq, Repr

/-- The round engine unit by its ports (R39): `fo = F(r, sk)`, `(lo, ro) = Round(l, r, sk)`. -/
def roundEngine (cfg : Config) (l r : Nibble) (sk : Byte) : RoundEngineOut :=
  let h := feistelRound cfg ⟨l, r⟩ sk
  ⟨roundF cfg r sk, h.L, h.R⟩

/-- FFUNC (R69). -/
def execFfunc (d : Byte) (a : KeyField) (s : State) : Result :=
  .next (s.respond (roundEngine config (highHalf d) (lowHalf d) (subkeyOf a)).fo)

/-- FROUND (R70): `l' ‖ r'`. -/
def execFround (d : Byte) (a : KeyField) (s : State) : Result :=
  let o := roundEngine config (highHalf d) (lowHalf d) (subkeyOf a)
  .next (s.respond (o.lo ++ o.ro))

end Sys2Proof.Machine
end

