-- ==== Sys2Proof/Machine/BlockCipher.lean ====
section
/-! DEFINITION. block_cipher_8bit_48cycle (44_block_cipher.md): encryption and decryption of one block, and the two
commands. Nothing is kept between calls, and no cycle count is part of it (R108). -/

namespace Sys2Proof.Machine

/-- The halves of the permuted block: `L = x[7:4]`, `R = x[3:0]` (R21, R73). -/
def Halves.ofBlock (blk : Byte) : Halves :=
  let x := permute IP blk
  ⟨highHalf x, lowHalf x⟩

/-- The output block: IPINV of the pre-output `R ‖ L`, right half first (R75). -/
def Halves.toBlock (h : Halves) : Byte := permute IPINV (h.R ++ h.L)

/-- The rounds, one for each subkey in the order given (R73, R74). -/
def runRounds (cfg : Config) (subkeys : List Byte) (h : Halves) : Halves := subkeys.foldl (feistelRound cfg) h

/-- `EncB(blk, key)` (R73): the subkeys in round order. -/
def encB (cfg : Config) {w : Nat} (blk : Byte) (key : BitVec w) : Byte :=
  (runRounds cfg (kSched key).toList (Halves.ofBlock blk)).toBlock

/-- `DecB(blk, key)` (R74): the same structure with the subkeys in the order `SK[4]`, `SK[3]`, `SK[2]`, `SK[1]`. -/
def decB (cfg : Config) {w : Nat} (blk : Byte) (key : BitVec w) : Byte :=
  (runRounds cfg (kSched key).toList.reverse (Halves.ofBlock blk)).toBlock

/-- The block cipher unit by its ports (R39): `dec` = 0 encrypts, `dec` = 1 decrypts. -/
def blockCipher (cfg : Config) (blk : Byte) (key : KeyField) (dec : Bool) : Byte :=
  if dec then decB cfg blk key else encB cfg blk key

/-- ENCB (R76). -/
def execEncb (d : Byte) (a : KeyField) (s : State) : Result := .next (s.respond (blockCipher config d a false))

/-- DECB (R77). -/
def execDecb (d : Byte) (a : KeyField) (s : State) : Result := .next (s.respond (blockCipher config d a true))

end Sys2Proof.Machine
end

