-- ==== Sys2Proof/Machine/ChainedPipe.lean ====
section
/-! DEFINITION. chained_double_encrypt_pipe (45_chained_double_pipe.md): the three commands that use CHAIN, and the two
functions on whole sequences that they compute one byte at a time (R86). -/

namespace Sys2Proof.Machine

/-- What the pipe puts out and what it writes to CHAIN (R39). -/
structure PipeOut where
  dout : Byte
  chain : Byte
  deriving DecidableEq, Repr

/-- The encrypting pass of one byte (R81): `k1` first, then `k2`; the ciphertext byte is fed back. -/
def pipeEncrypt (cfg : Config) {w1 w2 : Nat} (p : Byte) (k1 : BitVec w1) (k2 : BitVec w2) (chain : Byte) : PipeOut :=
  let X := p ^^^ chain
  let M := encB cfg X k1
  let c := encB cfg M k2
  ⟨c, c⟩

/-- The decrypting pass of one byte (R82): `k2` first, then `k1`; the ciphertext byte just consumed is fed back, not the
plaintext. -/
def pipeDecrypt (cfg : Config) {w1 w2 : Nat} (c : Byte) (k1 : BitVec w1) (k2 : BitVec w2) (chain : Byte) : PipeOut :=
  let M := decB cfg c k2
  let X := decB cfg M k1
  ⟨X ^^^ chain, c⟩

/-- The chained pipe unit by its ports (R39): `start` is CSTART; else `dec` = 0 is CENC and `dec` = 1 is CDEC. -/
def chainedPipe (cfg : Config) (start dec : Bool) (din : Byte) (k1 k2 : KeyField) (chain : Byte) : PipeOut :=
  if start then ⟨IV, IV⟩
  else if dec then pipeDecrypt cfg din k1 k2 chain
  else pipeEncrypt cfg din k1 k2 chain

/-- A command of the pipe: CHAIN and the response are written at the end of the step (R8, R24). -/
def runPipe (start dec : Bool) (din : Byte) (k1 k2 : KeyField) (s : State) : Result :=
  let o := chainedPipe config start dec din k1 k2 s.chain
  .next ((s.setChain o.chain).respond o.dout)

/-- CSTART (R80). -/
def execCstart (s : State) : Result := runPipe true false 0 0 0 s

/-- CENC (R81): `a` is `k1`, `b` is `k2`. -/
def execCenc (d : Byte) (a b : KeyField) (s : State) : Result := runPipe false false d a b s

/-- CDEC (R82): the same fields carry the same keys. -/
def execCdec (d : Byte) (a b : KeyField) (s : State) : Result := runPipe false true d a b s

/-- The loop of R84 from a given value of `chain`. -/
def chainEncryptFrom (cfg : Config) {w1 w2 : Nat} (k1 : BitVec w1) (k2 : BitVec w2) : Byte → List Byte → List Byte
  | _, [] => []
  | chain, p :: ps =>
      let c := encB cfg (encB cfg (p ^^^ chain) k1) k2
      c :: chainEncryptFrom cfg k1 k2 c ps

/-- The loop of R85 from a given value of `chain`. -/
def chainDecryptFrom (cfg : Config) {w1 w2 : Nat} (k1 : BitVec w1) (k2 : BitVec w2) : Byte → List Byte → List Byte
  | _, [] => []
  | chain, c :: cs => (decB cfg (decB cfg c k2) k1 ^^^ chain) :: chainDecryptFrom cfg k1 k2 c cs

/-- `ChainEncrypt(P, k1, k2)` (R84). -/
def chainEncrypt (cfg : Config) {w1 w2 : Nat} (ps : List Byte) (k1 : BitVec w1) (k2 : BitVec w2) : List Byte :=
  chainEncryptFrom cfg k1 k2 IV ps

/-- `ChainDecrypt(C, k1, k2)` (R85). -/
def chainDecrypt (cfg : Config) {w1 w2 : Nat} (cs : List Byte) (k1 : BitVec w1) (k2 : BitVec w2) : List Byte :=
  chainDecryptFrom cfg k1 k2 IV cs

end Sys2Proof.Machine
end

