-- ==== Sys2Proof/Machine/Dispatch.lean ====
section
/-! DEFINITION. The meaning of each command of the opcode table (R33): one arm a command. -/

namespace Sys2Proof.Machine

def exec (i : Instr) (s : State) : Host.Outcome State Fault Refusal :=
  match i with
  | .permIp d => Sys2Proof.Machine.execPermIp d s
  | .permIpinv d => Sys2Proof.Machine.execPermIpinv d s
  | .permPc1 a => Sys2Proof.Machine.execPermPc1 a s
  | .permPc2 a => Sys2Proof.Machine.execPermPc2 a s
  | .permE d => Sys2Proof.Machine.execPermE d s
  | .permP d => Sys2Proof.Machine.execPermP d s
  | .sbox0 d => Sys2Proof.Machine.execSbox0 d s
  | .sbox1 d => Sys2Proof.Machine.execSbox1 d s
  | .ksched a => Sys2Proof.Machine.execKsched a s
  | .ffunc d a => Sys2Proof.Machine.execFfunc d a s
  | .fround d a => Sys2Proof.Machine.execFround d a s
  | .encb d a => Sys2Proof.Machine.execEncb d a s
  | .decb d a => Sys2Proof.Machine.execDecb d a s
  | .cstart => Sys2Proof.Machine.execCstart s
  | .cenc d a b => Sys2Proof.Machine.execCenc d a b s
  | .cdec d a b => Sys2Proof.Machine.execCdec d a b s

end Sys2Proof.Machine
end

