-- ==== Sys2Proof/Machine/Port.lean ====
section
/-! DEFINITION. The input ports: what the host drives in a step and how the step takes it (R38, R104, R109). -/

namespace Sys2Proof.Machine

/-- A host that drives nothing: `rst` = 0, `cmd_valid` = 0 (notes/assumptions/2.md). -/
def PortInput.quiet : PortInput := ⟨false, none⟩

/-- A host that presents a command word: `rst` = 0, `cmd_valid` = 1 (R38). -/
def PortInput.present (w : Cmd) : PortInput := ⟨false, some w⟩

/-- A host that asserts `rst` (R100). -/
def PortInput.assertReset : PortInput := ⟨true, none⟩

/-- What the host drives in the coming step. -/
def State.portInput (s : State) : PortInput := s.inputs.headD PortInput.quiet

/-- The state with that step's input taken. A command that is presented but not issued is not kept: the host must hold it or
present it again (R104; notes/assumptions/12.md). -/
def State.takeInput (s : State) : State := { s with inputs := s.inputs.tail }

/-- The state with one more input for the coming step, before all others. -/
def State.drive (s : State) (p : PortInput) : State := { s with inputs := p :: s.inputs }

end Sys2Proof.Machine
end

