-- ==== Sys2Proof/Machine/Step.lean ====
section
/-! DEFINITION. One step of the datapath: an edge of reset, the start-up edge after it, the atomic execution of one
command (R2, R24), or a step in which the host presents nothing. There is no time in it (R108, notes/assumptions/5.md). -/

namespace Sys2Proof.Machine

/-- An issued command word: decoded before any state is read (R90), then executed whole, or IllegalCommand. -/
def runCommand (w : Cmd) (s : State) : Result :=
  match decode w with
  | .ok i => exec i s
  | .error _ => s.raiseIllegal

/-- One step. Reset wins over a command (R93); a command is issued only where `cmd_ready` is 1 (R38, R104). -/
def step (s : State) : Host.Outcome State Fault Refusal :=
  let p := s.portInput
  let s' := s.takeInput
  if p.rst then .next s'.resetEdge
  else if s.cmdReady then
    match p.cmd with
    | some w => runCommand w s'
    | none => .next s'.idle
  else .next s'.startUp

/-- The state in which the command of a row's bits is issued at the very next step: the host presents it and the datapath is
ready (notes/assumptions/7.md). Bits that are longer than any command are not placed. -/
def State.withFetchWord (s : State) (nbits w : Nat) : State :=
  if nbits ≤ 48 then { s.drive (PortInput.present (tableWord nbits w)) with cmdReady := true } else s

end Sys2Proof.Machine
end

