-- ==== Sys2Proof/Machine/Session.lean ====
section
/-! DEFINITION. The datapath over a whole run of the host (R103, R109): the responses in the order of issue, one for each
issued command (R38), the faulting ones among them, after which the datapath goes on (R90, R95). -/

namespace Sys2Proof.Machine

/-- The state after one step, whatever its outcome: after a fault the datapath goes on from the state that presents the
fault's response (R95). -/
def advance (s : State) : State :=
  match step s with
  | .next s' => s'
  | .fault f => f.resume
  | .refused _ => s

/-- One step in which the host drives `p`. -/
def serve (p : PortInput) (s : State) : State := advance (s.drive p)

/-- What the host observes over a list of inputs, and the state it leaves (R103): the `(err, resp)` pairs in issue order. -/
def session : List PortInput → State → List Response × State
  | [], s => ([], s)
  | p :: ps, s =>
      let s' := serve p s
      let rest := session ps s'
      (s'.response.toList ++ rest.1, rest.2)

/-- A host program, a list of command words (R103), each presented in a step of its own. -/
def runProgram (ws : List Cmd) (s : State) : List Response × State := session (ws.map PortInput.present) s

end Sys2Proof.Machine
end

