-- ==== Sys2Proof/Machine/Assembler.lean ====
section
/-! DEFINITION. The textual form of commands (30_encoding.md R36) and the two pseudo-commands (R37). It is not hardware;
it fixes which number goes into which field. -/

namespace Sys2Proof.Machine

/-- `ENCRYPT k1, k2, p0, ..., pn-1` (R37). -/
def encryptProgram (k1 k2 : KeyField) (p : List Byte) : List Instr := .cstart :: p.map fun x => .cenc x k1 k2

/-- `DECRYPT k1, k2, c0, ..., cn-1` (R37). -/
def decryptProgram (k1 k2 : KeyField) (c : List Byte) : List Instr := .cstart :: c.map fun x => .cdec x k1 k2

/-- The result of a pseudo-command (R37): the responses of its CENC or CDEC commands, each truncated to 8 bits; the response
of CSTART is discarded. -/
def pseudoResult (responses : List Response) : List Byte := responses.tail.map fun r => r.resp.setWidth 8

end Sys2Proof.Machine

namespace Sys2Proof

open Machine in
/-- The commands of a line, or an assembler error where it is ill formed (R36, R37). Operands are not masked: they go whole
into their fields. -/
def AsmLine.assemble (l : AsmLine) : Option (List Instr) :=
  if l.wellFormed then
    match l with
    | .command m d a b => some [m.instr (BitVec.ofNat 8 d) (BitVec.ofNat 16 a) (BitVec.ofNat 16 b)]
    | .encryptMessage k1 k2 p => some (encryptProgram (BitVec.ofNat 16 k1) (BitVec.ofNat 16 k2) (p.map (BitVec.ofNat 8)))
    | .decryptMessage k1 k2 c => some (decryptProgram (BitVec.ofNat 16 k1) (BitVec.ofNat 16 k2) (c.map (BitVec.ofNat 8)))
  else none

end Sys2Proof
end

