-- ==== Sys2Proof/Safety.lean ====
section
/-! DEFINITION. What the claims call a safe state, an input that cannot fault, and a command that leaves CHAIN alone. -/

namespace Sys2Proof.Machine

/-- The invariant of the machine, between steps (notes/assumptions/5.md): while `cmd_ready` is 0 the datapath is in reset, so
CHAIN is the initialisation value and no response is presented (R100); and a response with `err` = 1 carries `resp` = 0 (R32,
R90). -/
structure State.Inv (s : State) : Prop where
  inReset : s.cmdReady = false → s.chain = IV ∧ s.response = none
  errZero : ∀ r, s.response = some r → r.err = true → r.resp = 0#32

/-- The input of a step cannot raise IllegalCommand: it asserts reset, or presents nothing, or presents a word whose opcode is
not reserved (R34, R90, R93). -/
def PortInput.Legal (p : PortInput) : Prop :=
  p.rst = true ∨ ∀ w, p.cmd = some w → (Mnemonic.ofOpcode (cmdOp w)).isSome = true

/-- The commands that read or write CHAIN (R10); the thirteen others neither read nor write it. -/
def usesChain : Mnemonic → Bool
  | .cstart | .cenc | .cdec => true
  | .permIp | .permIpinv | .permPc1 | .permPc2 | .permE | .permP | .sbox0 | .sbox1 | .ksched | .ffunc | .fround | .encb
  | .decb => false

/-- The datapath issues a command in this step: `cmd_valid` and `cmd_ready` are both 1 and `rst` is 0 (R38, R93). -/
def State.issues (s : State) : Option Cmd :=
  if s.portInput.rst then none else if s.cmdReady then s.portInput.cmd else none

/-- What the host may do next cannot fault, for as long as it has anything planned. -/
def State.LegalInputs (s : State) : Prop := ∀ p ∈ s.inputs, p.Legal

end Sys2Proof.Machine
end

