-- ==== Sys2Proof/Certificates/Slice0/Obligations.lean ====
section
/-! DEFINITION. The statements for the provers, from the numbered rules of spec/. The tables below are written from the
spec's own tables and wirings, not from the model's definitions. -/

namespace Sys2Proof.Claims

open Sys2Proof.Machine

/-- The whole next state of a command: CHAIN and the response as given, everything else as it was. -/
def answered (s : State) (chain : Byte) (resp : Resp) : State := ⟨chain, s.cmdReady, some ⟨false, resp⟩, s.inputs⟩

/-- Bit `i` of a value, counted from 0 at the least significant (R7). -/
def bit {w : Nat} (v : BitVec w) (i : Nat) : BitVec 1 := v.extractLsb' i 1

/-- The `n` bits of a value from bit `lo` up, `v[lo+n-1:lo]` (R7). -/
def cut {w : Nat} (v : BitVec w) (lo n : Nat) : BitVec n := v.extractLsb' lo n

/-- A command word by its four fields (R30). -/
def word (op : BitVec 8) (b a : KeyField) (d : Byte) : Cmd := op ++ b ++ a ++ d

/-- The exclusive or of two values, or the first of them alone. -/
def xorIf {w : Nat} (c : Bool) (x y : BitVec w) : BitVec w := if c then x ^^^ y else x

/-- The wiring of IP (R41). -/
def ipWired (x : Byte) : Byte := bit x 6 ++ bit x 2 ++ bit x 5 ++ bit x 7 ++ bit x 4 ++ bit x 0 ++ bit x 3 ++ bit x 1

/-- The wiring of IPINV (R42). -/
def ipinvWired (x : Byte) : Byte := bit x 4 ++ bit x 7 ++ bit x 5 ++ bit x 3 ++ bit x 1 ++ bit x 6 ++ bit x 0 ++ bit x 2

/-- The wiring of PC1 (R43); the input may be wider than the window. -/
def pc1Wired {w : Nat} (x : BitVec w) : BitVec 10 :=
  bit x 7 ++ bit x 5 ++ bit x 8 ++ bit x 3 ++ bit x 6 ++ bit x 0 ++ bit x 9 ++ bit x 1 ++ bit x 2 ++ bit x 4

/-- The wiring of PC2 (R44); the input may be wider than the window. -/
def pc2Wired {w : Nat} (x : BitVec w) : Byte :=
  bit x 4 ++ bit x 7 ++ bit x 3 ++ bit x 6 ++ bit x 2 ++ bit x 5 ++ bit x 0 ++ bit x 1

/-- The wiring of E (R45); the input may be wider than the window. -/
def eWired {w : Nat} (x : BitVec w) : Byte :=
  bit x 0 ++ bit x 3 ++ bit x 2 ++ bit x 1 ++ bit x 2 ++ bit x 1 ++ bit x 0 ++ bit x 3

/-- The wiring of P (R46); the input may be wider than the window. -/
def pWired {w : Nat} (x : BitVec w) : Nibble := bit x 2 ++ bit x 0 ++ bit x 1 ++ bit x 3

/-- S0 flattened by its input (R55). -/
def s0Flat : List (BitVec 2) := [1, 3, 0, 2, 3, 1, 2, 0, 0, 3, 2, 1, 1, 3, 3, 2]

/-- S1 flattened by its input (R56), its last entry a parameter (D12). -/
def s1Flat (s1_33 : BitVec 2) : List (BitVec 2) := [0, 2, 1, 0, 2, 1, 3, 3, 3, 2, 0, 1, 1, 0, 0, s1_33]

/-- The schedules of the ten single-bit keys (R66), packed as KSCHED packs them (R62), key 0x200 first. -/
def singleBitSchedules : List Resp :=
  [0x80012002#32, 0x00044000#32, 0x04400010#32, 0x10000440#32, 0x00100004#32,
   0x01200208#32, 0x40001000#32, 0x08800120#32, 0x20020880#32, 0x02088001#32]

/-- The exclusive or of the schedules of the key bits that are set (R65, R66): key bit number `i + 1` is `key[9 - i]`. -/
def scheduleByRows {w : Nat} (key : BitVec w) : Resp :=
  (List.range 10).foldl (fun acc i => xorIf (key.getLsbD (9 - i)) acc (singleBitSchedules.getD i 0)) 0

/-- The round function from the flattened boxes and the wirings (R45, R46, R55, R56, R67). -/
def fByTables (s1_33 : BitVec 2) (r : Nibble) (k : Byte) : Nibble :=
  let T : Byte := eWired r ^^^ k
  let S : Nibble := s0Flat.getD (T.toNat / 16) 0 ++ (s1Flat s1_33).getD (T.toNat % 16) 0
  pWired S

/-- The reserved values of `op`, range by range as the rule lists them (R34). -/
def reservedOp (op : BitVec 8) : Bool :=
  let n := op.toNat
  decide (n ≤ 0x0F) || decide (0x16 ≤ n ∧ n ≤ 0x1F) || decide (0x22 ≤ n ∧ n ≤ 0x2F) || decide (0x31 ≤ n ∧ n ≤ 0x3F) ||
    decide (0x42 ≤ n ∧ n ≤ 0x4F) || decide (0x52 ≤ n ∧ n ≤ 0x5F) || decide (0x63 ≤ n)

/-- The column `match` of spec/opcode_table.json. -/
def tableMatch : Mnemonic → Cmd
  | .permIp => 0x100000000000#48
  | .permIpinv => 0x110000000000#48
  | .permPc1 => 0x120000000000#48
  | .permPc2 => 0x130000000000#48
  | .permE => 0x140000000000#48
  | .permP => 0x150000000000#48
  | .sbox0 => 0x200000000000#48
  | .sbox1 => 0x210000000000#48
  | .ksched => 0x300000000000#48
  | .ffunc => 0x400000000000#48
  | .fround => 0x410000000000#48
  | .encb => 0x500000000000#48
  | .decb => 0x510000000000#48
  | .cstart => 0x600000000000#48
  | .cenc => 0x610000000000#48
  | .cdec => 0x620000000000#48

/-- The bits of the command word that a command reads: `op` and the column "fields read" of R33. -/
def readMask : Mnemonic → Cmd
  | .permIp | .permIpinv => 0xFF00000000FF#48
  | .permPc1 | .permPc2 => 0xFF000003FF00#48
  | .permE | .permP | .sbox0 | .sbox1 => 0xFF000000000F#48
  | .ksched => 0xFF000003FF00#48
  | .ffunc => 0xFF000000FF0F#48
  | .fround => 0xFF000000FFFF#48
  | .encb | .decb => 0xFF000003FFFF#48
  | .cstart => 0xFF0000000000#48
  | .cenc | .cdec => 0xFF03FF03FFFF#48

/-- The bits of the command word that the textual form of a command writes: `op` and whole fields (R36). -/
def formMask : Mnemonic → Cmd
  | .permIp | .permIpinv | .permE | .permP | .sbox0 | .sbox1 => 0xFF00000000FF#48
  | .permPc1 | .permPc2 | .ksched => 0xFF0000FFFF00#48
  | .ffunc | .fround | .encb | .decb => 0xFF0000FFFFFF#48
  | .cstart => 0xFF0000000000#48
  | .cenc | .cdec => 0xFFFFFFFFFFFF#48

/-- The width of a command's result before zero-extension (R32). -/
def resultWidth : Mnemonic → Nat
  | .sbox0 | .sbox1 => 2
  | .permP | .ffunc => 4
  | .permIp | .permIpinv | .permPc2 | .permE | .fround | .encb | .decb | .cstart | .cenc | .cdec => 8
  | .permPc1 => 10
  | .ksched => 32

/-- The four keys whose schedule reads the same in both directions (R77). -/
def palindromicKeys : List (BitVec 10) := [0x000#10, 0x1E8#10, 0x217#10, 0x3FF#10]

/-- A command word that touches CHAIN: CSTART, CENC or CDEC (R10). -/
def chainWord (w : Cmd) : Bool := cmdOp w == 0x60#8 || cmdOp w == 0x61#8 || cmdOp w == 0x62#8

/-- The bits that a command word of the pipe is read by: all that CSTART, CENC and CDEC do not ignore (R31, R33). -/
def chainBits (w : Cmd) : Cmd := w &&& (if cmdOp w == 0x60#8 then readMask .cstart else readMask .cenc)

/-- The exchange of the two halves of a byte (R71, R75). -/
def swapHalves (x : Byte) : Byte := cut x 0 4 ++ cut x 4 4

/-- Four rounds written out, over any round function, with the subkeys in the order given, right half first (R73 to R75). -/
def fourRoundsOf (F : Nibble → Byte → Nibble) (x : Byte) (k1 k2 k3 k4 : Byte) : Byte :=
  let L0 := cut x 4 4
  let R0 := cut x 0 4
  let R1 := L0 ^^^ F R0 k1
  let R2 := R0 ^^^ F R1 k2
  let R3 := R1 ^^^ F R2 k3
  let R4 := R2 ^^^ F R3 k4
  R4 ++ R3

/-- Four rounds of the model's round function. -/
def fourRounds (cfg : Config) (x : Byte) (k1 k2 k3 k4 : Byte) : Byte := fourRoundsOf (roundF cfg) x k1 k2 k3 k4

/-- A byte of a message with the keys of its own command (R88 item 2). -/
structure KeyedByte where
  k1 : KeyField
  k2 : KeyField
  byte : Byte
  deriving DecidableEq, Repr

end Sys2Proof.Claims

open Sys2Proof Sys2Proof.Machine Sys2Proof.Claims

/-! ### The step and the encoding -/

/-- A command is issued where `cmd_valid` and `cmd_ready` are both 1 (R38), and the step is then the atomic execution of the
decoded command (R2), with the host's input taken. The list of inputs and `withFetchWord` are the model's own
(notes/assumptions/2.md, 7.md, 10.md). -/
def Obligations.StepRunsTheDecodedCommand : Prop :=
  (∀ (s : State) (w : Cmd) (i : Instr) (rest : List PortInput),
    s.cmdReady = true → s.inputs = ⟨false, some w⟩ :: rest → decode w = .ok i →
      step s = exec i { s with inputs := rest }) ∧
  (∀ (s : State) (w : Cmd) (i : Instr), decode w = .ok i →
    step (s.withFetchWord 48 w.toNat) = exec i { s with cmdReady := true } ∧ decodeTableWord 48 w.toNat = some i)

/-- R34: the 240 reserved opcodes fault, with CHAIN unchanged, `err` = 1 and `resp` = 0, and no other opcode is reserved. The
state that the fault carries is what the datapath presents, and the list of inputs is the model's (notes/assumptions/3.md,
2.md). -/
def Obligations.ReservedOpcodesRaiseIllegalCommand : Prop :=
  ((List.range 256).filter fun n => reservedOp (BitVec.ofNat 8 n)).length = 240 ∧
  (∀ w : Cmd, reservedOp (cmdOp w) = false → ∃ i, decode w = .ok i) ∧
  (∀ (s : State) (w : Cmd) (rest : List PortInput),
    reservedOp (cmdOp w) = true → s.cmdReady = true → s.inputs = ⟨false, some w⟩ :: rest →
      decode w = .error (.reservedOpcode (cmdOp w)) ∧
        step s = .fault (.illegalCommand ⟨s.chain, true, some ⟨true, 0#32⟩, rest⟩)) ∧
  (∀ s : State, s.cmdReady = true → ∀ w ∈ [0x000000000000#48, 0xFFFFFFFFFFFF#48], ∀ rest : List PortInput,
    s.inputs = ⟨false, some w⟩ :: rest → ∃ f, step s = .fault f)

/-- R90, R95: the fault is precise. The commands after it are executed as if it had not been issued, it gets the one response
`err` = 1, `resp` = 0, and CHAIN is as it was. That a session goes on from the state a fault presents, over a
list of inputs, is the model's (notes/assumptions/3.md, 2.md). -/
def Obligations.IllegalCommandIsPrecise : Prop :=
  ∀ (s : State) (w : Cmd) (ps : List PortInput), s.cmdReady = true → reservedOp (cmdOp w) = true →
    (session (PortInput.present w :: ps) s).1 = ⟨true, 0#32⟩ :: (session ps s).1 ∧
    (session (PortInput.present w :: ps) s).2.chain = (session ps s).2.chain

/-- R95: any number of consecutive illegal commands each get their own `err` = 1 response and none of them changes CHAIN; the
datapath is ready after them (`cmd_ready` = 1). A program is run as notes/assumptions/2.md and 3.md say. -/
def Obligations.ConsecutiveIllegalCommandsEachAnswered : Prop :=
  ∀ (s : State) (ws : List Cmd), s.cmdReady = true → (∀ w ∈ ws, reservedOp (cmdOp w) = true) →
    (runProgram ws s).1 = List.replicate ws.length ⟨true, 0#32⟩ ∧
    (runProgram ws s).2.chain = s.chain ∧ (runProgram ws s).2.cmdReady = true

/-- R91, R99: a reserved opcode in an issued command is the only thing that faults, and no step is refused. That the fault carries
the state that the datapath presents is the model's choice (notes/assumptions/3.md), and so is the list of inputs that the step
takes one from (notes/assumptions/2.md). -/
def Obligations.OnlyReservedOpcodesFault : Prop :=
  ∀ s : State,
    (∀ f, step s = .fault f ↔
      ∃ w, s.issues = some w ∧ reservedOp (cmdOp w) = true ∧
        f = .illegalCommand ⟨s.chain, s.cmdReady, some ⟨true, 0#32⟩, s.inputs.tail⟩) ∧
    ∀ r, step s ≠ .refused r

/-- R33: a word selects a mnemonic if and only if it matches the mnemonic's row of the table, whose mask is
0xFF0000000000; the result depends on no other bit. -/
def Obligations.DecoderLooksAtOpcodeOnly : Prop :=
  (∀ (w : Cmd) (m : Mnemonic),
    (∃ i, decode w = .ok i ∧ i.mnemonic = m) ↔ w &&& 0xFF0000000000#48 = tableMatch m) ∧
  ∀ m m' : Mnemonic, tableMatch m = tableMatch m' → m = m'

/-- R30, R33, R36: encoding and decoding agree. Decoding an encoded command gives it back with every operand, and encoding a
decoded word gives the word with the fields its command does not write as zero. -/
def Obligations.DecodeOfEncodeIsTheCommand : Prop :=
  (∀ i : Instr, decode (encode i) = .ok i) ∧
  ∀ (w : Cmd) (i : Instr), decode w = .ok i → encode i = w &&& formMask i.mnemonic

/-- Words written out from R30 and R33, one for each unit, decode to the commands they stand for. -/
def Obligations.ExampleWordsDecode : Prop :=
  decode (0b000100000000000000000000000000000000000010000000#48) = .ok (.permIp 0x80) ∧
  decode (0b000100100000000000000000000000101000001000000000#48) = .ok (.permPc1 0x0282) ∧
  decode (0b001000010000000000000000000000000000000000001000#48) = .ok (.sbox1 0x08) ∧
  decode (0b001100000000000000000000000000101000001000000000#48) = .ok (.ksched 0x0282) ∧
  decode (0b010000000000000000000000000000000100001100000101#48) = .ok (.ffunc 0x05 0x0043) ∧
  decode (0b010100010000000000000000000000101000001000111101#48) = .ok (.decb 0x3D 0x0282) ∧
  decode (0b011000010000000101010101000000101000001001001000#48) = .ok (.cenc 0x48 0x0282 0x0155)

/-- R31, R35: bits that a command does not read have no effect on the state or the response and never cause a fault. The three
words of R35 are the same command, ENCB of block 0x00 under key 0x200, the third with a discarded part of the key field, and
answer 0x61. -/
def Obligations.IgnoredBitsHaveNoEffect : Prop :=
  (∀ (w w' : Cmd) (i : Instr) (s : State), decode w = .ok i →
    w &&& readMask i.mnemonic = w' &&& readMask i.mnemonic →
      ∃ j t, decode w' = .ok j ∧ exec i s = .next t ∧ exec j s = .next t) ∧
  ∀ s : State, ∀ x ∈ [(0x500000020000#48, 0x0200#16), (0x50FFFF020000#48, 0x0200#16), (0x500000FE0000#48, 0xFE00#16)],
    decode x.1 = .ok (.encb 0x00 x.2) ∧ cut x.2 0 10 = 0x200#10 ∧
      exec (.encb 0x00 x.2) s = .next (answered s s.chain 0x00000061#32)

/-- R22 item 3: command bytes go most significant first, and six bytes are one word. The last clause, that any other number of
bytes is rejected by name, is the model's choice (notes/assumptions/11.md). -/
def Obligations.CommandBytesAreBigEndian : Prop :=
  (∀ w : Cmd, cmdOfBytes (cmdToBytes w) = .ok w) ∧
  (∀ bytes : List Byte, bytes.length = 6 → ∃ w, cmdOfBytes bytes = .ok w ∧ cmdToBytes w = bytes) ∧
  (∀ (op bHi bLo aHi aLo d : Byte),
    cmdToBytes (word op (bHi ++ bLo) (aHi ++ aLo) d) = [op, bHi, bLo, aHi, aLo, d]) ∧
  (∀ r : Resp, respToBytes r = [(r >>> 24).setWidth 8, (r >>> 16).setWidth 8, (r >>> 8).setWidth 8, r.setWidth 8]) ∧
  (∀ bytes : List Byte, bytes.length ≠ 6 → cmdOfBytes bytes = .error (.notSixBytes bytes.length))

/-- R36, R37: a line whose operands fit their fields assembles to its command with the numbers in their fields, whole; a line of
any form, a pseudo-command's too, with an operand too wide for its field is an error; and the pseudo-commands expand to CSTART
and one CENC or CDEC a byte. -/
def Obligations.AssemblerFillsTheFields : Prop :=
  (∀ (m : Mnemonic) (d a b : Nat), (AsmLine.command m d a b).wellFormed = true →
    ∃ i, (AsmLine.command m d a b).assemble = some [i] ∧
      encode i = word m.opcode (BitVec.ofNat 16 b) (BitVec.ofNat 16 a) (BitVec.ofNat 8 d)) ∧
  (∀ (m : Mnemonic) (d a b : Nat), (0xFF < d ∨ 0xFFFF < a ∨ 0xFFFF < b) → (AsmLine.command m d a b).assemble = none) ∧
  (∀ (k1 k2 : Nat) (p : List Nat), (0xFFFF < k1 ∨ 0xFFFF < k2 ∨ ∃ x ∈ p, 0xFF < x) →
    (AsmLine.encryptMessage k1 k2 p).assemble = none ∧ (AsmLine.decryptMessage k1 k2 p).assemble = none) ∧
  (∀ (k1 k2 : KeyField) (p : List Byte),
    (AsmLine.encryptMessage k1.toNat k2.toNat (p.map BitVec.toNat)).assemble =
      some (.cstart :: p.map fun x => .cenc x k1 k2)) ∧
  (∀ (k1 k2 : KeyField) (c : List Byte),
    (AsmLine.decryptMessage k1.toNat k2.toNat (c.map BitVec.toNat)).assemble =
      some (.cstart :: c.map fun x => .cdec x k1 k2))

/-! ### Whole-machine rules over all commands -/

/-- R32, R10: every decoded command completes from every state, with `err` = 0 and a result of its width; only CSTART, CENC and
CDEC may change CHAIN, and nothing but CHAIN and the response changes. -/
def Obligations.EveryDecodedCommandCompletes : Prop :=
  ∀ (i : Instr) (s : State), ∃ (c : Byte) (r : Resp),
    exec i s = .next (answered s c r) ∧ r.toNat < 2 ^ resultWidth i.mnemonic ∧
      (usesChain i.mnemonic = false → c = s.chain)

/-- R10, R19: a command other than CSTART, CENC and CDEC answers the same from every state, and leaves CHAIN alone. -/
def Obligations.ChainFreeCommandsDoNotSeeTheState : Prop :=
  ∀ i : Instr, usesChain i.mnemonic = false →
    ∃ r : Resp, ∀ s : State, exec i s = .next (answered s s.chain r)

/-- R24: every command but CENC and CDEC is idempotent, and a repeated CDEC answers differently exactly when CHAIN differed from
`d` before the first. -/
def Obligations.RepeatedCommands : Prop :=
  (∀ i : Instr, i.mnemonic ≠ .cenc → i.mnemonic ≠ .cdec → ∀ s : State, ∃ t, exec i s = .next t ∧ exec i t = .next t) ∧
  (∀ (d : Byte) (a b : KeyField) (s : State), ∃ t u,
    exec (.cdec d a b) s = .next t ∧ exec (.cdec d a b) t = .next u ∧
      (u.response ≠ t.response ↔ s.chain ≠ d) ∧ t.chain = d ∧ u.chain = d)

/-! ### Reset, start-up and the ports -/

/-- R100: an edge with `rst` = 1 sets CHAIN to 0x9C, `cmd_ready` to 0 and `resp_valid` to 0, whatever is presented; on the first
edge with `rst` = 0 after that `cmd_ready` becomes 1, and a command presented before is not issued (inputs:
notes/assumptions/2.md, 12.md). The last clause is the start-up edge of a host that drives nothing more. -/
def Obligations.ResetEdgeAndStartUp : Prop :=
  (∀ (s : State) (cmd : Option Cmd) (rest : List PortInput), s.inputs = ⟨true, cmd⟩ :: rest →
    step s = .next ⟨0x9C#8, false, none, rest⟩) ∧
  (∀ (s : State) (cmd : Option Cmd) (rest : List PortInput), s.cmdReady = false → s.inputs = ⟨false, cmd⟩ :: rest →
    step s = .next ⟨s.chain, true, none, rest⟩) ∧
  (∀ s : State, s.cmdReady = false → s.inputs = [] → step s = .next ⟨s.chain, true, none, []⟩)

/-- R101: the state after reset, which every reset edge also leaves. That the host then drives nothing is the model's choice
(notes/assumptions/2.md). -/
def Obligations.StateAfterReset : Prop :=
  State.reset.chain = 0x9C#8 ∧ State.reset.response = none ∧ State.reset.Inv ∧
  ∀ (s : State) (cmd : Option Cmd), step { s with inputs := [⟨true, cmd⟩] } = .next State.reset

/-- The invariant of the machine holds after every step from a state that meets it, a faulting step included (R32, R100). That
`cmd_ready` = 0 between steps means reset rests on commands being atomic steps, the model's choice (notes/assumptions/5.md): R104
has it 0 inside a command too. That a fault carries the state the datapath goes on from is the model's choice
(notes/assumptions/3.md). -/
def Obligations.StepKeepsInvariant : Prop :=
  ∀ s : State, s.Inv →
    (∀ s', step s = .next s' → s'.Inv) ∧ (∀ f, step s = .fault f → f.resume.Inv)

/-- R38: `resp_valid` is 1 in exactly the steps that issue a command. A step that issues none and is no reset changes no
CHAIN. A ready datapath that is presented nothing, by an input that says so or by a host that drives nothing more
(notes/assumptions/2.md), stays ready, keeps CHAIN and presents no response (R38, R104, R107; notes/assumptions/13.md). After
a fault `advance` goes on from the state presented (notes/assumptions/3.md). -/
def Obligations.ResponseExactlyWhenIssued : Prop :=
  (∀ s : State,
    ((advance s).response.isSome = true ↔ s.issues.isSome = true) ∧
    (s.issues = none → s.portInput.rst = false → (advance s).chain = s.chain)) ∧
  (∀ (s : State) (rest : List PortInput), s.cmdReady = true → s.inputs = ⟨false, none⟩ :: rest →
    step s = .next ⟨s.chain, true, none, rest⟩) ∧
  (∀ s : State, s.cmdReady = true → s.inputs = [] → step s = .next ⟨s.chain, true, none, []⟩)

/-- R38, R103: a program gets one response per command, in the order of issue, with `err` = 1 exactly for the reserved
opcodes, and the datapath is ready after it (notes/assumptions/2.md, 3.md). -/
def Obligations.OneResponsePerCommand : Prop :=
  ∀ (ws : List Cmd) (s : State), s.cmdReady = true →
    (runProgram ws s).1.map Response.err = ws.map (fun w => reservedOp (cmdOp w)) ∧
    (runProgram ws s).2.cmdReady = true ∧ (runProgram ws s).2.inputs = s.inputs

/-- R25, R19: what the datapath answers depends on its past through CHAIN alone, on no response, key or schedule of an earlier
command. Two ready datapaths with equal CHAIN give the same responses to the same inputs and end alike; and the response to a
program's last command is that of any ready datapath whose CHAIN is what the commands before it wrote (notes/assumptions/2.md,
3.md). -/
def Obligations.ResponsesDependOnThePastThroughChainAlone : Prop :=
  (∀ (ps : List PortInput) (s t : State), s.cmdReady = true → t.cmdReady = true → s.chain = t.chain →
    (session ps s).1 = (session ps t).1 ∧
    (session ps s).2.chain = (session ps t).2.chain ∧ (session ps s).2.cmdReady = (session ps t).2.cmdReady) ∧
  (∀ (ws : List Cmd) (w : Cmd) (s t : State), s.cmdReady = true → t.cmdReady = true →
    t.chain = (runProgram ws s).2.chain →
      (runProgram (ws ++ [w]) s).1 = (runProgram ws s).1 ++ (runProgram [w] t).1)

/-- R100: CSTART is equivalent to reset as far as later responses are concerned. A reset takes two steps, its edge and the start-up
edge (notes/assumptions/2.md, 3.md, 7.md). -/
def Obligations.CstartIsEquivalentToReset : Prop :=
  ∀ (s : State) (b a : KeyField) (d : Byte) (ps : List PortInput), s.cmdReady = true →
    (session (PortInput.present (word 0x60#8 b a d) :: ps) s).1 =
      ⟨false, 0x9C#32⟩ :: (session (PortInput.assertReset :: PortInput.quiet :: ps) s).1

/-- No input of the host that is legal makes a run stop (notes/assumptions/2.md, 3.md): with only legal inputs planned, every
number of steps answers a next state (R91, R103). -/
def Obligations.LegalRunsNeverStop : Prop :=
  ∀ (n : Nat) (s : State), s.LegalInputs → ∃ t, Host.Core.run core n s = .next t ∧ t.LegalInputs

/-! ### bit_permutation_unit -/

/-- R40: `y[N-i] = v[W - T[i]]` for `i` = 1..N, for every well-formed vector and every value, and bits at positions `W` and above
are never read. The last clause is the rule's worked example. -/
def Obligations.PermuteSelectsNumberedBits : Prop :=
  (∀ (W N w : Nat) (T : PermVector W N) (v : BitVec w),
    (∀ (i : Nat) (h : i - 1 < N), 1 ≤ i → (permute T v).getLsbD (N - i) = v.getLsbD (W - T.entries[i - 1])) ∧
    permute T (v.setWidth W) = permute T v) ∧
  ∀ T : PermVector 8 8, T.entries.toList = [2, 6, 3, 1, 4, 8, 5, 7] → permute T 0b10100101#8 = 0b01110100#8

/-- R48, R49: PERM_IP and PERM_IPINV ignore `a` and `b`, answer the wirings of R41 and R42, and change nothing else. -/
def Obligations.PermIpAndIpinvAnswer : Prop :=
  ∀ (b a : KeyField) (d : Byte) (s : State),
    (decode (word 0x10#8 b a d) = .ok (.permIp d) ∧
      exec (.permIp d) s = .next (answered s s.chain ((ipWired d).setWidth 32)) ∧ permute IP d = ipWired d) ∧
    (decode (word 0x11#8 b a d) = .ok (.permIpinv d) ∧
      exec (.permIpinv d) s = .next (answered s s.chain ((ipinvWired d).setWidth 32)) ∧ permute IPINV d = ipinvWired d)

/-- R50, R51: PERM_PC1 and PERM_PC2 read `a[9:0]` only, answer the wirings of R43 and R44, and change nothing else. -/
def Obligations.PermPc1AndPc2Answer : Prop :=
  ∀ (b a : KeyField) (d : Byte) (s : State),
    (decode (word 0x12#8 b a d) = .ok (.permPc1 a) ∧
      exec (.permPc1 a) s = .next (answered s s.chain ((pc1Wired (cut a 0 10)).setWidth 32)) ∧
      permute PC1 a = pc1Wired (cut a 0 10)) ∧
    (decode (word 0x13#8 b a d) = .ok (.permPc2 a) ∧
      exec (.permPc2 a) s = .next (answered s s.chain ((pc2Wired (cut a 0 10)).setWidth 32)) ∧
      permute PC2 a = pc2Wired (cut a 0 10))

/-- R52, R53: PERM_E and PERM_P read `d[3:0]` only, answer the wirings of R45 and R46, and change nothing else. -/
def Obligations.PermEAndPAnswer : Prop :=
  ∀ (b a : KeyField) (d : Byte) (s : State),
    (decode (word 0x14#8 b a d) = .ok (.permE d) ∧
      exec (.permE d) s = .next (answered s s.chain ((eWired (cut d 0 4)).setWidth 32)) ∧
      permute E d = eWired (cut d 0 4)) ∧
    (decode (word 0x15#8 b a d) = .ok (.permP d) ∧
      exec (.permP d) s = .next (answered s s.chain ((pWired (cut d 0 4)).setWidth 32)) ∧
      permute P d = pWired (cut d 0 4))

/-- R47: the four properties of the permutation unit: IP and IPINV invert each other on values, and IP is not its own inverse; IP,
IPINV, PC1 and P are bijections, E is injective with the inverse the rule gives, PC2 is onto and four-to-one;
every vector is linear over XOR; and all entries are within the window. -/
def Obligations.PermutationUnitProperties : Prop :=
  ((∀ b : Byte, permute IPINV (permute IP b) = b ∧ permute IP (permute IPINV b) = b) ∧
    permute IP (permute IP 0x80#8) = 0x08#8) ∧
  (Function.Bijective (fun v : Byte => permute IP v) ∧ Function.Bijective (fun v : Byte => permute IPINV v) ∧
    Function.Bijective (fun v : BitVec 10 => permute PC1 v) ∧ Function.Bijective (fun v : Nibble => permute P v) ∧
    (∀ x : Nibble, x = bit (permute E x) 6 ++ bit (permute E x) 5 ++ bit (permute E x) 4 ++ bit (permute E x) 7) ∧
    (∀ y : Byte, ∃ x : BitVec 10, ∀ x' : BitVec 10, permute PC2 x' = y ↔ cut x' 0 8 = cut x 0 8)) ∧
  (∀ (W N w : Nat) (T : PermVector W N) (u v : BitVec w),
    permute T (u ^^^ v) = permute T u ^^^ permute T v ∧ permute T (0#w) = 0#N) ∧
  (∀ (W N : Nat) (T : PermVector W N) (i : Fin N), 1 ≤ T.entries[i] ∧ T.entries[i] ≤ W)

/-! ### s_box_substitution -/

/-- R54: the row is the outer two bits, the column the inner two, the first of each the more significant; for every table. -/
def Obligations.SboxRowIsOuterColumnIsInner : Prop :=
  ∀ (S : SBox) (h : Nibble),
    sboxLookup S h =
      (S.toList.getD (2 * (h.getLsbD 3).toNat + (h.getLsbD 0).toNat) #v[0, 0, 0, 0]).toList.getD
        (2 * (h.getLsbD 2).toNat + (h.getLsbD 1).toNat) 0

/-- R57, R58: SBOX0 and SBOX1 read `d[3:0]` only, answer the flattened tables of R55 and R56, and change nothing else. The entry
of input 0xF of S1 is the parameter S1_33 (D12), whatever its value; that it is 3 on this machine is notes/assumptions/4.md. -/
def Obligations.SboxCommandsAnswerTheTables : Prop :=
  (∀ (cfg : Config) (h : Nibble), sbox1 cfg h = (s1Flat cfg.s1_33).getD h.toNat 0) ∧
  ∀ (b a : KeyField) (d : Byte) (s : State),
    (decode (word 0x20#8 b a d) = .ok (.sbox0 d) ∧
      exec (.sbox0 d) s = .next (answered s s.chain ((s0Flat.getD (d.toNat % 16) 0).setWidth 32))) ∧
    (decode (word 0x21#8 b a d) = .ok (.sbox1 d) ∧
      exec (.sbox1 d) s = .next (answered s s.chain (((s1Flat config.s1_33).getD (d.toNat % 16) 0).setWidth 32)))

/-! ### key_schedule_generator -/

/-- R62: KSCHED reads `a[9:0]` only and answers the four subkeys, the first in the most significant byte; by R65 and R66 the
response is the exclusive or of the rows of R66 of the key bits that are set. -/
def Obligations.KschedAnswersTheSubkeys : Prop :=
  ∀ (b a : KeyField) (d : Byte) (s : State),
    decode (word 0x30#8 b a d) = .ok (.ksched a) ∧
    exec (.ksched a) s = .next (answered s s.chain (scheduleByRows a)) ∧
    (kSched a)[0] ++ (kSched a)[1] ++ (kSched a)[2] ++ (kSched a)[3] = scheduleByRows a

/-- R63, R79: key bits above bit 9 are discarded before anything else, in every use of a key, whatever its width. -/
def Obligations.KeyBitsAboveNineAreDiscarded : Prop :=
  ∀ (cfg : Config) (w : Nat) (key : BitVec w) (b : Byte),
    kSched key = kSched (key.setWidth 10) ∧
    encB cfg b key = encB cfg b (key.setWidth 10) ∧ decB cfg b key = decB cfg b (key.setWidth 10)

/-- R64: the third subkey is formed from the unrotated halves, and rotating the original halves by 1, 3, 0 and 2 places gives the
same schedule as rotating cumulatively by 1, 2, 2 and 2. -/
def Obligations.CumulativeRotationIsOneThreeZeroTwo : Prop :=
  ∀ key : BitVec 10,
    let t := permute PC1 key
    let rotated := fun n => permute PC2 ((cut t 5 5).rotateLeft n ++ (cut t 0 5).rotateLeft n)
    kSched key = #v[rotated 1, rotated 3, rotated 0, rotated 2] ∧ (kSched key)[2] = permute PC2 (permute PC1 key)

/-- R65: the schedule is linear over XOR. -/
def Obligations.KeyScheduleIsLinear : Prop :=
  ∀ (j k : BitVec 10) (r : Fin 4),
    (kSched (j ^^^ k))[r] = (kSched j)[r] ^^^ (kSched k)[r] ∧ (kSched (0#10))[r] = 0#8

/-- R79: no two 10-bit keys have the same schedule. -/
def Obligations.KeyScheduleIsInjective : Prop :=
  ∀ j k : BitVec 10, kSched j = kSched k → j = k

/-! ### feistel_round_engine -/

/-- R69: FFUNC reads `d[3:0]` and `a[7:0]` only and answers the round function of R67, here from the flattened boxes and the
wirings; whatever the value of the open box entry S1_33 (D12). -/
def Obligations.FfuncAnswersTheRoundFunction : Prop :=
  (∀ (cfg : Config) (r : Nibble) (k : Byte), roundF cfg r k = fByTables cfg.s1_33 r k) ∧
  ∀ (b a : KeyField) (d : Byte) (s : State),
    decode (word 0x40#8 b a d) = .ok (.ffunc d a) ∧
    exec (.ffunc d a) s =
      .next (answered s s.chain ((fByTables config.s1_33 (cut d 0 4) (cut a 0 8)).setWidth 32))

/-- R70: FROUND reads `d` and `a[7:0]` only and answers `R ‖ (L xor F(R, k))` (R68). -/
def Obligations.FroundAnswersTheRound : Prop :=
  ∀ (b a : KeyField) (d : Byte) (s : State),
    decode (word 0x41#8 b a d) = .ok (.fround d a) ∧
    exec (.fround d a) s =
      .next (answered s s.chain
        ((cut d 0 4 ++ (cut d 4 4 ^^^ roundF config (cut d 0 4) (cut a 0 8))).setWidth 32))

/-- R71: the round is undone by the round with the same subkey between two exchanges of the halves, as a function and through the
command, for every value of the boxes' open entry; and F depends on its operands only through `E(r) xor k`. -/
def Obligations.RoundIsItsOwnInverseUpToSwap : Prop :=
  (∀ (cfg : Config) (k : Byte) (l r : Nibble),
    let o := feistelRound cfg ⟨l, r⟩ k
    feistelRound cfg ⟨o.R, o.L⟩ k = ⟨r, l⟩) ∧
  (∀ (cfg : Config) (r r' : Nibble) (k k' : Byte),
    permute E r ^^^ k = permute E r' ^^^ k' → roundF cfg r k = roundF cfg r' k') ∧
  (∀ (d : Byte) (a : KeyField) (s : State), ∃ y : Byte,
    exec (.fround d a) s = .next (answered s s.chain (y.setWidth 32)) ∧
    exec (.fround (swapHalves y) a) s = .next (answered s s.chain ((swapHalves d).setWidth 32)))

/-! ### block_cipher_8bit_48cycle -/

/-- R76: ENCB reads `d` and `a[9:0]` only and answers `EncB` (R73), here with the four rounds written out. -/
def Obligations.EncbAnswersTheEncryptedBlock : Prop :=
  ∀ (b a : KeyField) (d : Byte) (s : State),
    let SK := kSched (cut a 0 10)
    let c := permute IPINV (fourRounds config (permute IP d) SK[0] SK[1] SK[2] SK[3])
    decode (word 0x50#8 b a d) = .ok (.encb d a) ∧ encB config d a = c ∧
    exec (.encb d a) s = .next (answered s s.chain (c.setWidth 32))

/-- R77: DECB reads `d` and `a[9:0]` only and answers `DecB` (R74), here with the four rounds written out and the subkeys in
reverse. The keys whose schedule reads the same in both directions are the four of the rule, and under them DECB answers as
ENCB does. -/
def Obligations.DecbAnswersTheDecryptedBlock : Prop :=
  (∀ (b a : KeyField) (d : Byte) (s : State),
    let SK := kSched (cut a 0 10)
    let p := permute IPINV (fourRounds config (permute IP d) SK[3] SK[2] SK[1] SK[0])
    decode (word 0x51#8 b a d) = .ok (.decb d a) ∧ decB config d a = p ∧
    exec (.decb d a) s = .next (answered s s.chain (p.setWidth 32))) ∧
  (∀ k : BitVec 10, ((kSched k)[0] = (kSched k)[3] ∧ (kSched k)[1] = (kSched k)[2]) ↔ k ∈ palindromicKeys) ∧
  (∀ (d : Byte) (a : KeyField) (s : State), cut a 0 10 ∈ palindromicKeys →
    exec (.decb d a) s = exec (.encb d a) s ∧ encB config (encB config d a) a = d)

/-- R78: for every key of any width and every block, decryption and encryption invert each other, and for each key encryption is
a bijection on the blocks; whatever the value of the open box entry. The last clause is the rule's remark that nothing is used
of the tables but that the outer two permutations are inverse: the same structure inverts itself over any round function `F`, any
subkeys and any such pair. -/
def Obligations.BlockCipherRoundTrip : Prop :=
  (∀ (cfg : Config) (w : Nat) (k : BitVec w),
    (∀ b : Byte, decB cfg (encB cfg b k) k = b ∧ encB cfg (decB cfg b k) k = b) ∧
    Function.Bijective (fun b : Byte => encB cfg b k)) ∧
  ∀ (F : Nibble → Byte → Nibble) (ip ipinv : Byte → Byte) (k1 k2 k3 k4 b : Byte), (∀ x, ip (ipinv x) = x) → ipinv (ip b) = b →
    ipinv (fourRoundsOf F (ip (ipinv (fourRoundsOf F (ip b) k1 k2 k3 k4))) k4 k3 k2 k1) = b

/-! ### chained_double_encrypt_pipe -/

/-- R80: CSTART ignores its fields, writes 0x9C to CHAIN and answers it, from every state. -/
def Obligations.CstartLoadsTheInitialisationValue : Prop :=
  ∀ (b a : KeyField) (d : Byte) (s : State),
    decode (word 0x60#8 b a d) = .ok .cstart ∧
    exec .cstart s = .next (answered s 0x9C#8 0x0000009C#32) ∧
    exec .cstart (answered s 0x9C#8 0x0000009C#32) = .next (answered s 0x9C#8 0x0000009C#32)

/-- R81: CENC encrypts `d xor CHAIN` under `k1`, then under `k2`, answers the ciphertext byte and feeds it back. Under one of the
four palindromic keys of R77 twice the passes cancel. -/
def Obligations.CencAnswersTheChainedCiphertext : Prop :=
  (∀ (b a : KeyField) (d : Byte) (s : State),
    let c := encB config (encB config (d ^^^ s.chain) (cut a 0 10)) (cut b 0 10)
    decode (word 0x61#8 b a d) = .ok (.cenc d a b) ∧
    exec (.cenc d a b) s = .next (answered s c (c.setWidth 32))) ∧
  (∀ (b a : KeyField) (d : Byte) (s : State),
    cut a 0 10 = cut b 0 10 → cut a 0 10 ∈ palindromicKeys →
      exec (.cenc d a b) s = .next (answered s (d ^^^ s.chain) ((d ^^^ s.chain).setWidth 32)))

/-- R82: CDEC decrypts `d` under `k2`, then under `k1`, answers the result xor CHAIN as it was, and feeds `d` back. -/
def Obligations.CdecAnswersTheChainedPlaintext : Prop :=
  ∀ (b a : KeyField) (d : Byte) (s : State),
    let p := decB config (decB config d (cut b 0 10)) (cut a 0 10) ^^^ s.chain
    decode (word 0x62#8 b a d) = .ok (.cdec d a b) ∧
    exec (.cdec d a b) s = .next (answered s d (p.setWidth 32))

/-- R86: the expansions of ENCRYPT and DECRYPT compute `ChainEncrypt` and `ChainDecrypt`, from any ready state, with no fault, and
leave CHAIN at the last ciphertext byte, or at IV for the empty message. Commands that do not touch CHAIN may be interleaved
freely: `ws` is any program whose commands of the pipe are those of the expansion, up to the bits that these ignore. A program is
run as notes/assumptions/2.md and 3.md say. -/
def Obligations.ProgramsComputeTheChainedCipher : Prop :=
  ∀ (s : State) (k1 k2 : KeyField) (m : List Byte) (ws : List Cmd), s.cmdReady = true →
    let run := runProgram ws s
    let mine := ((ws.zip run.1).filter fun x => chainWord x.1).map Prod.snd
    ((ws.filter chainWord).map chainBits = (encryptProgram k1 k2 m).map (fun i => chainBits (encode i)) →
      pseudoResult mine = chainEncrypt config m k1 k2 ∧ (∀ r ∈ mine, r.err = false) ∧
        run.2.chain = (chainEncrypt config m k1 k2).getLastD 0x9C#8) ∧
    ((ws.filter chainWord).map chainBits = (decryptProgram k1 k2 m).map (fun i => chainBits (encode i)) →
      pseudoResult mine = chainDecrypt config m k1 k2 ∧ (∀ r ∈ mine, r.err = false) ∧
        run.2.chain = m.getLastD 0x9C#8)

/-- R105, R95: commands that do not touch CHAIN, illegal ones among them, disturb no chained command, whatever the chained commands
are: their responses and the final CHAIN are those of the chained commands alone (notes/assumptions/2.md, 3.md). -/
def Obligations.InterleavedCommandsDoNotDisturbTheMessage : Prop :=
  ∀ (ws : List Cmd) (s : State), s.cmdReady = true →
    (((ws.zip (runProgram ws s).1).filter fun x => chainWord x.1) =
      (ws.filter chainWord).zip (runProgram (ws.filter chainWord) s).1) ∧
    (runProgram ws s).2.chain = (runProgram (ws.filter chainWord) s).2.chain

/-- R87: for every sequence and all keys of any width, decryption and encryption of a message invert each other and keep its
length, and a changed ciphertext byte changes no plaintext byte but its own and the next; whatever the value of the open box
entry. -/
def Obligations.ChainedCipherRoundTrip : Prop :=
  ∀ (cfg : Config) (w1 w2 : Nat) (k1 : BitVec w1) (k2 : BitVec w2) (m : List Byte),
    chainDecrypt cfg (chainEncrypt cfg m k1 k2) k1 k2 = m ∧ chainEncrypt cfg (chainDecrypt cfg m k1 k2) k1 k2 = m ∧
    (chainEncrypt cfg m k1 k2).length = m.length ∧ (chainDecrypt cfg m k1 k2).length = m.length ∧
    ∀ (i j : Nat) (x : Byte), j ≠ i → j ≠ i + 1 →
      (chainDecrypt cfg (m.set i x) k1 k2)[j]? = (chainDecrypt cfg m k1 k2)[j]?

/-- R85, R87: a changed ciphertext byte does change its own plaintext byte, and changes the next one in exactly the changed
bits. -/
def Obligations.ChangedCiphertextByteChangesTwoPlaintextBytes : Prop :=
  ∀ (cfg : Config) (w1 w2 : Nat) (k1 : BitVec w1) (k2 : BitVec w2) (m : List Byte) (i : Nat) (x old : Byte),
    m[i]? = some old → x ≠ old →
    (chainDecrypt cfg (m.set i x) k1 k2)[i]? ≠ (chainDecrypt cfg m k1 k2)[i]? ∧
    (chainDecrypt cfg (m.set i x) k1 k2)[i + 1]? =
      (chainDecrypt cfg m k1 k2)[i + 1]?.map (fun p => p ^^^ (x ^^^ old))

/-- R88 item 1: after reset CSTART may be omitted. With nothing else, one step makes the datapath ready, and the CENC or CDEC
commands that follow are those of a message (notes/assumptions/2.md, 7.md). -/
def Obligations.MessageMayFollowResetDirectly : Prop :=
  ∀ (k1 k2 : KeyField) (m : List Byte),
    ((session (PortInput.quiet :: (m.map fun x => PortInput.present (encode (.cenc x k1 k2)))) State.reset).1.map
      fun r => r.resp.setWidth 8) = chainEncrypt config m k1 k2 ∧
    ((session (PortInput.quiet :: (m.map fun x => PortInput.present (encode (.cdec x k1 k2)))) State.reset).1.map
      fun r => r.resp.setWidth 8) = chainDecrypt config m k1 k2

/-- R88 item 2: keys may change from byte to byte. Decryption, run on the machine, inverts encryption, run on the machine, if each
byte is decrypted with the keys it was encrypted with (notes/assumptions/2.md, 3.md). -/
def Obligations.PerByteKeysRoundTrip : Prop :=
  ∀ (s : State) (m : List KeyedByte), s.cmdReady = true →
    let enc := runProgram ((.cstart :: m.map fun x => .cenc x.byte x.k1 x.k2 : List Instr).map encode) s
    let dec := runProgram
      ((.cstart :: (m.zip (pseudoResult enc.1)).map fun x => .cdec x.2 x.1.k1 x.1.k2 : List Instr).map encode) s
    pseudoResult dec.1 = m.map KeyedByte.byte ∧ enc.2.chain = dec.2.chain
end

