-- ==== Sys2Proof/Laws/BitPermutation.lean ====
section
/-! SUPPORT. What `permute` does to each bit (R40), and what follows for the window and for XOR (R47). -/

namespace Sys2Proof.Machine

variable {W N w : Nat}

/-- A well-formed vector's entries are bit numbers of the window (R47 item 4), one entry at a time. -/
theorem entry_inRange (T : PermVector W N) (i : Nat) (h : i < N) : 1 ≤ T.entries[i] ∧ T.entries[i] ≤ W := by
  have := T.inRange
  simp only [entriesInRange, List.all_eq_true, decide_eq_true_eq] at this
  exact this _ (by simp)

/-- Bit `k` of the result, counted from the most significant, is the input bit that entry `k` numbers. -/
theorem getMsbD_permute (T : PermVector W N) (v : BitVec w) (k : Nat) (h : k < N) :
    (permute T v).getMsbD k = v.getLsbD (W - T.entries[k]) := by
  simp [permute, BitVec.getMsbD_cast, BitVec.getMsbD_ofBoolListBE, h]

/-- Two permuted values are equal where the selected input bits are. -/
theorem permute_congr {w' : Nat} (T : PermVector W N) (u : BitVec w) (v : BitVec w')
    (h : ∀ k, k < W → u.getLsbD k = v.getLsbD k) : permute T u = permute T v := by
  apply BitVec.eq_of_getMsbD_eq
  intro i hi
  have := entry_inRange T i hi
  rw [getMsbD_permute _ _ _ hi, getMsbD_permute _ _ _ hi, h _ (by omega)]

/-- Cutting the input to a width that covers the window changes nothing. -/
theorem permute_setWidth_of_le (T : PermVector W N) (v : BitVec w) {n : Nat} (hn : W ≤ n) :
    permute T (v.setWidth n) = permute T v :=
  permute_congr T _ _ fun k hk => by simp [show k < n by omega]

/-- `permute` distributes over XOR, here with the two operands of one width. -/
theorem getMsbD_permute_xor (T : PermVector W N) (u v : BitVec w) (k : Nat) (h : k < N) :
    (permute T (u ^^^ v)).getMsbD k = ((permute T u).getMsbD k ^^ (permute T v).getMsbD k) := by
  simp [getMsbD_permute _ _ _ h]

end Sys2Proof.Machine
end

