-- ==== Sys2Proof/Laws/Decode.lean ====
section
/-! SUPPORT. The fields of an assembled command word, and what an opcode selects. -/

namespace Sys2Proof

variable (op : BitVec 8) (b a : KeyField) (d : Byte)

/-- Each bit of an assembled word comes from the field that holds its place (R30). -/
theorem getLsbD_cmdWord (i : Nat) : (cmdWord op b a d).getLsbD i =
    if i < 8 then d.getLsbD i else if i < 24 then a.getLsbD (i - 8)
    else if i < 40 then b.getLsbD (i - 24) else op.getLsbD (i - 40) := by
  have h : (cmdWord op b a d).getLsbD i = (op ++ b ++ a ++ d).getLsbD i := rfl
  rw [h, BitVec.getLsbD_append, BitVec.getLsbD_append, BitVec.getLsbD_append]
  have h1 : i - 8 - 16 = i - 24 := by omega
  have h2 : i - 24 - 16 = i - 40 := by omega
  simp only [h1, h2, show i - 8 < 16 ↔ i < 24 by omega, show i - 24 < 16 ↔ i < 40 by omega]

@[simp] theorem cmdOp_cmdWord : cmdOp (cmdWord op b a d) = op := by
  apply BitVec.eq_of_getLsbD_eq
  intro i hi
  simp only [cmdOp, BitVec.extractLsb, BitVec.getLsbD_extractLsb', getLsbD_cmdWord]
  split_ifs <;> first | omega | simp_all

@[simp] theorem cmdB_cmdWord : cmdB (cmdWord op b a d) = b := by
  apply BitVec.eq_of_getLsbD_eq
  intro i hi
  simp only [cmdB, BitVec.extractLsb, BitVec.getLsbD_extractLsb', getLsbD_cmdWord]
  split_ifs <;> first | omega | simp_all

@[simp] theorem cmdA_cmdWord : cmdA (cmdWord op b a d) = a := by
  apply BitVec.eq_of_getLsbD_eq
  intro i hi
  simp only [cmdA, BitVec.extractLsb, BitVec.getLsbD_extractLsb', getLsbD_cmdWord]
  split_ifs <;> first | omega | simp_all

@[simp] theorem cmdD_cmdWord : cmdD (cmdWord op b a d) = d := by
  apply BitVec.eq_of_getLsbD_eq
  intro i hi
  simp only [cmdD, BitVec.extractLsb, BitVec.getLsbD_extractLsb', getLsbD_cmdWord]
  split_ifs <;> first | omega | simp_all

/-- The opcode map has no two equal entries (R33). -/
theorem Mnemonic.opcode_injective {m m' : Mnemonic} (h : m.opcode = m'.opcode) : m = m' := by
  cases m <;> cases m' <;> first | rfl | exact absurd h (by decide)

/-- A mnemonic's opcode selects it. -/
@[simp] theorem Mnemonic.ofOpcode_opcode (m : Mnemonic) : Mnemonic.ofOpcode m.opcode = some m := by
  cases m <;> rfl

theorem Mnemonic.opcode_of_ofOpcode {o : BitVec 8} {m : Mnemonic} (h : Mnemonic.ofOpcode o = some m) : m.opcode = o := by
  simpa using List.find?_some h

/-- An opcode selects a mnemonic if and only if it is its opcode (R33). -/
theorem Mnemonic.ofOpcode_eq_some_iff {o : BitVec 8} {m : Mnemonic} : Mnemonic.ofOpcode o = some m ↔ m.opcode = o :=
  ⟨Mnemonic.opcode_of_ofOpcode, fun h => h ▸ Mnemonic.ofOpcode_opcode m⟩

@[simp] theorem Mnemonic.mnemonic_instr (m : Mnemonic) : (m.instr d a b).mnemonic = m := by
  cases m <;> rfl

theorem decode_of_ofOpcode {w : Cmd} {m : Mnemonic} (h : Mnemonic.ofOpcode (cmdOp w) = some m) :
    decode w = .ok (m.instr (cmdD w) (cmdA w) (cmdB w)) := by simp [decode, h]

theorem decode_of_reserved {w : Cmd} (h : Mnemonic.ofOpcode (cmdOp w) = none) :
    decode w = .error (.reservedOpcode (cmdOp w)) := by simp [decode, h]

/-- Everything a successful decoding says. -/
theorem decode_ok_iff {w : Cmd} {i : Instr} :
    decode w = .ok i ↔ ∃ m : Mnemonic, Mnemonic.ofOpcode (cmdOp w) = some m ∧ i = m.instr (cmdD w) (cmdA w) (cmdB w) := by
  cases h : Mnemonic.ofOpcode (cmdOp w) with
  | some m => simp [decode, h, eq_comm]
  | none => simp [decode, h]

/-- A word of a mnemonic's opcode decodes to its command, whatever its other bits. -/
@[simp] theorem decode_cmdWord (m : Mnemonic) : decode (cmdWord m.opcode b a d) = .ok (m.instr d a b) := by
  rw [decode_of_ofOpcode (m := m) (by simp)]; simp

end Sys2Proof
end

