-- ==== Sys2Proof/Laws/PerInstr.lean ====
section
/-! SUPPORT. Per-command lemmas: family `Fields`, what the assembled word of a command holds in each field (R30, R36). -/

namespace Sys2Proof.Laws.Fields

/-- The word of a command has the command's opcode in `op`, and zero in every field that the command's textual form does not
write (R36). -/
def Statement (i : Instr) : Prop :=
  cmdOp (encode i) = i.mnemonic.opcode ∧
    (i.mnemonic.form.d = false → cmdD (encode i) = 0) ∧
    (i.mnemonic.form.a = false → cmdA (encode i) = 0) ∧
    (i.mnemonic.form.b = false → cmdB (encode i) = 0)

theorem permIp (d : Byte) : Statement (.permIp d) := by
  simp [Statement, encode, Instr.mnemonic, Mnemonic.form]

theorem permIpinv (d : Byte) : Statement (.permIpinv d) := by
  simp [Statement, encode, Instr.mnemonic, Mnemonic.form]

theorem permPc1 (a : KeyField) : Statement (.permPc1 a) := by
  simp [Statement, encode, Instr.mnemonic, Mnemonic.form]

theorem permPc2 (a : KeyField) : Statement (.permPc2 a) := by
  simp [Statement, encode, Instr.mnemonic, Mnemonic.form]

theorem permE (d : Byte) : Statement (.permE d) := by
  simp [Statement, encode, Instr.mnemonic, Mnemonic.form]

theorem permP (d : Byte) : Statement (.permP d) := by
  simp [Statement, encode, Instr.mnemonic, Mnemonic.form]

theorem sbox0 (d : Byte) : Statement (.sbox0 d) := by
  simp [Statement, encode, Instr.mnemonic, Mnemonic.form]

theorem sbox1 (d : Byte) : Statement (.sbox1 d) := by
  simp [Statement, encode, Instr.mnemonic, Mnemonic.form]

theorem ksched (a : KeyField) : Statement (.ksched a) := by
  simp [Statement, encode, Instr.mnemonic, Mnemonic.form]

theorem ffunc (d : Byte) (a : KeyField) : Statement (.ffunc d a) := by
  simp [Statement, encode, Instr.mnemonic, Mnemonic.form]

theorem fround (d : Byte) (a : KeyField) : Statement (.fround d a) := by
  simp [Statement, encode, Instr.mnemonic, Mnemonic.form]

theorem encb (d : Byte) (a : KeyField) : Statement (.encb d a) := by
  simp [Statement, encode, Instr.mnemonic, Mnemonic.form]

theorem decb (d : Byte) (a : KeyField) : Statement (.decb d a) := by
  simp [Statement, encode, Instr.mnemonic, Mnemonic.form]

theorem cstart : Statement (.cstart) := by
  simp [Statement, encode, Instr.mnemonic, Mnemonic.form]

theorem cenc (d : Byte) (a : KeyField) (b : KeyField) : Statement (.cenc d a b) := by
  simp [Statement, encode, Instr.mnemonic, Mnemonic.form]

theorem cdec (d : Byte) (a : KeyField) (b : KeyField) : Statement (.cdec d a b) := by
  simp [Statement, encode, Instr.mnemonic, Mnemonic.form]

end Sys2Proof.Laws.Fields
end

