-- ==== Sys2Proof/Laws/State.lean ====
section
/-! SUPPORT. What each update of the state does to each field, one lemma a field: no later proof unfolds a record update. -/

namespace Sys2Proof.Machine

variable (s : State)

@[simp] theorem State.setChain_chain (v : Byte) : (s.setChain v).chain = v := rfl
@[simp] theorem State.setChain_cmdReady (v : Byte) : (s.setChain v).cmdReady = s.cmdReady := rfl
@[simp] theorem State.setChain_response (v : Byte) : (s.setChain v).response = s.response := rfl
@[simp] theorem State.setChain_inputs (v : Byte) : (s.setChain v).inputs = s.inputs := rfl

@[simp] theorem State.respond_chain {w : Nat} (r : BitVec w) : (s.respond r).chain = s.chain := rfl
@[simp] theorem State.respond_cmdReady {w : Nat} (r : BitVec w) : (s.respond r).cmdReady = s.cmdReady := rfl
@[simp] theorem State.respond_response {w : Nat} (r : BitVec w) : (s.respond r).response = some (Response.ok r) := rfl
@[simp] theorem State.respond_inputs {w : Nat} (r : BitVec w) : (s.respond r).inputs = s.inputs := rfl

@[simp] theorem State.resetEdge_chain : (s.resetEdge).chain = IV := rfl
@[simp] theorem State.resetEdge_cmdReady : (s.resetEdge).cmdReady = false := rfl
@[simp] theorem State.resetEdge_response : (s.resetEdge).response = none := rfl
@[simp] theorem State.resetEdge_inputs : (s.resetEdge).inputs = s.inputs := rfl

@[simp] theorem State.startUp_chain : (s.startUp).chain = s.chain := rfl
@[simp] theorem State.startUp_cmdReady : (s.startUp).cmdReady = true := rfl
@[simp] theorem State.startUp_response : (s.startUp).response = none := rfl
@[simp] theorem State.startUp_inputs : (s.startUp).inputs = s.inputs := rfl

@[simp] theorem State.idle_chain : (s.idle).chain = s.chain := rfl
@[simp] theorem State.idle_cmdReady : (s.idle).cmdReady = s.cmdReady := rfl
@[simp] theorem State.idle_response : (s.idle).response = none := rfl
@[simp] theorem State.idle_inputs : (s.idle).inputs = s.inputs := rfl

@[simp] theorem State.presentFault_chain : (s.presentFault).chain = s.chain := rfl
@[simp] theorem State.presentFault_cmdReady : (s.presentFault).cmdReady = s.cmdReady := rfl
@[simp] theorem State.presentFault_response : (s.presentFault).response = some Response.illegal := rfl
@[simp] theorem State.presentFault_inputs : (s.presentFault).inputs = s.inputs := rfl

@[simp] theorem State.takeInput_chain : (s.takeInput).chain = s.chain := rfl
@[simp] theorem State.takeInput_cmdReady : (s.takeInput).cmdReady = s.cmdReady := rfl
@[simp] theorem State.takeInput_response : (s.takeInput).response = s.response := rfl
@[simp] theorem State.takeInput_inputs : (s.takeInput).inputs = s.inputs.tail := rfl

@[simp] theorem State.drive_chain (p : PortInput) : (s.drive p).chain = s.chain := rfl
@[simp] theorem State.drive_cmdReady (p : PortInput) : (s.drive p).cmdReady = s.cmdReady := rfl
@[simp] theorem State.drive_response (p : PortInput) : (s.drive p).response = s.response := rfl
@[simp] theorem State.drive_inputs (p : PortInput) : (s.drive p).inputs = p :: s.inputs := rfl

@[simp] theorem Response.ok_err {w : Nat} (r : BitVec w) : (Response.ok r).err = false := rfl
@[simp] theorem Response.ok_resp {w : Nat} (r : BitVec w) : (Response.ok r).resp = r.setWidth 32 := rfl
@[simp] theorem Response.illegal_err : Response.illegal.err = true := rfl
@[simp] theorem Response.illegal_resp : Response.illegal.resp = 0#32 := rfl

@[simp] theorem Fault.resume_illegalCommand (t : State) : (Fault.illegalCommand t).resume = t := rfl

@[simp] theorem State.reset_chain : State.reset.chain = IV := rfl
@[simp] theorem State.reset_cmdReady : State.reset.cmdReady = false := rfl
@[simp] theorem State.reset_response : State.reset.response = none := rfl
@[simp] theorem State.reset_inputs : State.reset.inputs = [] := rfl

@[simp] theorem State.portInput_drive (p : PortInput) : (s.drive p).portInput = p := rfl
@[simp] theorem State.takeInput_drive (p : PortInput) : (s.drive p).takeInput = s := rfl

theorem State.portInput_of_inputs {s : State} {p : PortInput} {rest : List PortInput} (h : s.inputs = p :: rest) :
    s.portInput = p := by simp [State.portInput, h]

theorem State.takeInput_of_inputs {s : State} {p : PortInput} {rest : List PortInput} (h : s.inputs = p :: rest) :
    s.takeInput = { s with inputs := rest } := by simp [State.takeInput, h]

end Sys2Proof.Machine
end

