-- ==== Sys2Proof/Laws/Step.lean ====
section
/-! SUPPORT. Everything a command and a step can do, said once: provers cite these and do not unfold `exec` or `step`. -/

namespace Sys2Proof.Machine

/-- Every meaning writes CHAIN and the response and nothing else, and only the three commands of the pipe change CHAIN. -/
theorem exec_shape (i : Instr) (s : State) :
    ∃ (c : Byte) (r : Resp), exec i s = .next { s with chain := c, response := some ⟨false, r⟩ } ∧
      (usesChain i.mnemonic = false → c = s.chain) := by
  cases i <;> exact ⟨_, _, rfl, by simp [usesChain, Instr.mnemonic]⟩

/-- Inversion of a command's next state. -/
theorem exec_next {i : Instr} {s t : State} (h : exec i s = .next t) :
    t.cmdReady = s.cmdReady ∧ t.inputs = s.inputs ∧ (∃ r, t.response = some ⟨false, r⟩) ∧
      (usesChain i.mnemonic = false → t.chain = s.chain) := by
  obtain ⟨c, r, h', hc⟩ := exec_shape i s
  rw [h'] at h
  cases h
  exact ⟨rfl, rfl, ⟨r, rfl⟩, hc⟩

theorem runCommand_of_decode {w : Cmd} {i : Instr} (h : decode w = .ok i) (s : State) : runCommand w s = exec i s := by
  simp [runCommand, h]

theorem runCommand_of_reserved {w : Cmd} (h : Mnemonic.ofOpcode (cmdOp w) = none) (s : State) :
    runCommand w s = s.raiseIllegal := by simp [runCommand, decode_of_reserved h]

theorem step_of_rst {s : State} (h : s.portInput.rst = true) : step s = .next s.takeInput.resetEdge := by
  simp [step, h]

theorem step_of_notReady {s : State} (h : s.portInput.rst = false) (hr : s.cmdReady = false) :
    step s = .next s.takeInput.startUp := by simp [step, h, hr]

theorem step_of_quiet {s : State} (h : s.portInput.rst = false) (hr : s.cmdReady = true) (hc : s.portInput.cmd = none) :
    step s = .next s.takeInput.idle := by simp [step, h, hr, hc]

theorem step_of_command {s : State} {w : Cmd} (h : s.portInput.rst = false) (hr : s.cmdReady = true)
    (hc : s.portInput.cmd = some w) : step s = runCommand w s.takeInput := by simp [step, h, hr, hc]

/-- Everything a step can do: a reset edge, the start-up edge, a step with no command, a command's whole execution, or
IllegalCommand. -/
theorem step_cases (s : State) :
    (s.portInput.rst = true ∧ step s = .next s.takeInput.resetEdge) ∨
    (s.portInput.rst = false ∧ s.cmdReady = false ∧ step s = .next s.takeInput.startUp) ∨
    (s.portInput.rst = false ∧ s.cmdReady = true ∧ s.portInput.cmd = none ∧ step s = .next s.takeInput.idle) ∨
    (∃ w i, s.portInput.rst = false ∧ s.cmdReady = true ∧ s.portInput.cmd = some w ∧ decode w = .ok i ∧
      step s = exec i s.takeInput) ∨
    (∃ w, s.portInput.rst = false ∧ s.cmdReady = true ∧ s.portInput.cmd = some w ∧
      Mnemonic.ofOpcode (cmdOp w) = none ∧ step s = s.takeInput.raiseIllegal) := by
  cases hr : s.portInput.rst with
  | true => exact .inl ⟨rfl, step_of_rst hr⟩
  | false =>
    cases hy : s.cmdReady with
    | false => exact .inr (.inl ⟨rfl, rfl, step_of_notReady hr hy⟩)
    | true =>
      cases hc : s.portInput.cmd with
      | none => exact .inr (.inr (.inl ⟨rfl, rfl, rfl, step_of_quiet hr hy hc⟩))
      | some w =>
        have hs := step_of_command hr hy hc
        cases ho : Mnemonic.ofOpcode (cmdOp w) with
        | none =>
          exact .inr (.inr (.inr (.inr ⟨w, rfl, rfl, rfl, ho, hs.trans (runCommand_of_reserved ho _)⟩)))
        | some m =>
          have hd := decode_of_ofOpcode ho
          exact .inr (.inr (.inr (.inl ⟨w, _, rfl, rfl, rfl, hd, hs.trans (runCommand_of_decode hd _)⟩)))

/-- Presenting a command to a ready datapath runs it on the state as it is. -/
theorem serve_command {s : State} {w : Cmd} {i : Instr} {t : State} (hr : s.cmdReady = true) (hd : decode w = .ok i)
    (he : exec i s = .next t) : serve (PortInput.present w) s = t := by
  rw [serve, advance, step_of_command (s := s.drive (PortInput.present w)) rfl hr rfl, runCommand_of_decode hd,
    State.takeInput_drive, he]

/-- Presenting a reserved opcode to a ready datapath changes the response only. -/
theorem serve_reserved {s : State} {w : Cmd} (hr : s.cmdReady = true) (ho : Mnemonic.ofOpcode (cmdOp w) = none) :
    serve (PortInput.present w) s = s.presentFault := by
  rw [serve, advance, step_of_command (s := s.drive (PortInput.present w)) rfl hr rfl, runCommand_of_reserved ho]
  rfl

/-- What a command computes is a function of CHAIN alone (R2, R19): the new CHAIN and the result. -/
theorem exec_of_chain (i : Instr) :
    ∃ f : Byte → Byte × Resp, ∀ s : State,
      exec i s = .next { s with chain := (f s.chain).1, response := some ⟨false, (f s.chain).2⟩ } := by
  refine ⟨fun c => match exec i ⟨c, true, none, []⟩ with
    | .next t => (t.chain, (t.response.getD Response.illegal).resp)
    | .fault _ | .refused _ => (0, 0), fun s => ?_⟩
  cases i <;> rfl

/-- A step that the host drives reads CHAIN and `cmd_ready` only, and leaves the inputs that come after it. -/
theorem serve_eq_of_chain (p : PortInput) {s t : State} (hr : s.cmdReady = t.cmdReady) (hc : s.chain = t.chain) :
    serve p s = { serve p t with inputs := s.inputs } := by
  obtain ⟨rst, cmd⟩ := p
  obtain ⟨chain, ready, response, inputs⟩ := s
  obtain ⟨chain', ready', response', inputs'⟩ := t
  obtain rfl : ready = ready' := hr
  obtain rfl : chain = chain' := hc
  cases rst with
  | true => rfl
  | false =>
    cases ready with
    | false => rfl
    | true =>
      cases cmd with
      | none => rfl
      | some w =>
        cases ho : Mnemonic.ofOpcode (cmdOp w) with
        | none =>
          have h := fun r is => serve_reserved (s := ⟨chain, true, r, is⟩) rfl ho
          simp only [PortInput.present] at h
          rw [h, h]; rfl
        | some m =>
          have hd := decode_of_ofOpcode ho
          obtain ⟨f, hf⟩ := exec_of_chain (m.instr (cmdD w) (cmdA w) (cmdB w))
          have h := fun r is => serve_command (s := ⟨chain, true, r, is⟩) rfl hd (hf _)
          simp only [PortInput.present] at h
          rw [h, h]

/-- A step overwrites the response and does not read it (R107): what follows a step does not depend on the response it left. -/
theorem serve_withResponse (p : PortInput) (s : State) (o : Option Response) :
    serve p { s with response := o } = serve p s :=
  (serve_eq_of_chain p (s := { s with response := o }) (t := s) rfl rfl).trans
    (serve_eq_of_chain p (s := s) (t := s) rfl rfl).symm

/-- A session of one list of inputs after another is the session of the second from the state that the first left (R25). -/
theorem session_append (ps qs : List PortInput) (s : State) :
    session (ps ++ qs) s = ((session ps s).1 ++ (session qs (session ps s).2).1, (session qs (session ps s).2).2) := by
  induction ps generalizing s with
  | nil => rfl
  | cons p ps ih => simp [session, ih]

theorem session_withResponse (q : PortInput) (ps : List PortInput) (s : State) (o : Option Response) :
    session (q :: ps) { s with response := o } = session (q :: ps) s := by
  simp only [session, serve_withResponse]

theorem runProgram_cons (w : Cmd) (ws : List Cmd) (s : State) :
    runProgram (w :: ws) s =
      ((serve (PortInput.present w) s).response.toList ++ (runProgram ws (serve (PortInput.present w) s)).1,
        (runProgram ws (serve (PortInput.present w) s)).2) := rfl

end Sys2Proof.Machine
end

