-- ==== Sys2Proof/Tests/Slice0.lean ====
section
/-! SUPPORT. The model's own tests. Expected results are the spec's: each test names the rule or the section of
95_test_vectors.md it is taken from. The witnesses at the end show that the hypotheses of the statements can be met. -/

namespace Sys2Proof.Tests

open Sys2Proof.Machine Sys2Proof.Claims

/-- A datapath that is ready, with the given CHAIN. -/
def ready (chain : Byte) : State := ⟨chain, true, none, []⟩

/-- What a command answered, and CHAIN after it. -/
def outcomeOf : Result → Option (Option Response × Byte)
  | .next s => some (s.response, s.chain)
  | .fault _ => none
  | .refused _ => none

/-- What the datapath presents after a fault. -/
def faultOf : Result → Option State
  | .fault f => some f.resume
  | .next _ => none
  | .refused _ => none

/-! ### Well-formedness: each check refuses an ill-formed term -/

theorem test_assembler_refuses_wide_d : (AsmLine.command .permIp 0x100 0 0).wellFormed = false := by decide
theorem test_assembler_refuses_wide_a : (AsmLine.command .encb 0 0x10000 0).wellFormed = false := by decide
theorem test_assembler_refuses_wide_b : (AsmLine.command .cenc 0 0 0x10000).wellFormed = false := by decide
theorem test_assembler_refuses_unwritten_d : (AsmLine.command .ksched 1 0 0).wellFormed = false := by decide
theorem test_assembler_refuses_unwritten_a : (AsmLine.command .permE 0 1 0).wellFormed = false := by decide
theorem test_assembler_refuses_unwritten_b : (AsmLine.command .decb 0 0 1).wellFormed = false := by decide
theorem test_assembler_refuses_wide_k1 : (AsmLine.encryptMessage 0x10000 0 []).wellFormed = false := by decide
theorem test_assembler_refuses_wide_k2 : (AsmLine.decryptMessage 0 0x10000 []).wellFormed = false := by decide
theorem test_assembler_refuses_wide_byte : (AsmLine.encryptMessage 0 0 [0x41, 0x100]).wellFormed = false := by decide
theorem test_vector_refuses_entry_zero : entriesInRange 8 [2, 0, 3] = false := by decide
theorem test_vector_refuses_entry_above_window : entriesInRange 8 [2, 9, 3] = false := by decide

/-! ### Decoding: a word written out from R30 and R33 for each command, with the example words of the rules -/

theorem test_decode_permIp : decode 0x100000000080#48 = .ok (.permIp 0x80) := by rfl
theorem test_decode_permIpinv : decode 0x110000000010#48 = .ok (.permIpinv 0x10) := by rfl
theorem test_decode_permPc1 : decode 0x120000028200#48 = .ok (.permPc1 0x0282) := by rfl
theorem test_decode_permPc2 : decode 0x130000003800#48 = .ok (.permPc2 0x0038) := by rfl
theorem test_decode_permE : decode 0x14000000000A#48 = .ok (.permE 0x0A) := by rfl
theorem test_decode_permP : decode 0x150000000006#48 = .ok (.permP 0x06) := by rfl
theorem test_decode_sbox0 : decode 0x200000000009#48 = .ok (.sbox0 0x09) := by rfl
theorem test_decode_sbox1 : decode 0x210000000008#48 = .ok (.sbox1 0x08) := by rfl
theorem test_decode_ksched : decode 0x300000028200#48 = .ok (.ksched 0x0282) := by rfl
theorem test_decode_ffunc : decode 0x400000004305#48 = .ok (.ffunc 0x05 0x0043) := by rfl
theorem test_decode_fround : decode 0x41000000A474#48 = .ok (.fround 0x74 0x00A4) := by rfl
theorem test_decode_encb : decode 0x5000000282A5#48 = .ok (.encb 0xA5 0x0282) := by rfl
theorem test_decode_decb : decode 0x51000002823D#48 = .ok (.decb 0x3D 0x0282) := by rfl
theorem test_decode_cstart : decode 0x60DEADBEEF77#48 = .ok .cstart := by rfl
theorem test_decode_cenc : decode 0x610155028248#48 = .ok (.cenc 0x48 0x0282 0x0155) := by rfl
theorem test_decode_cdec : decode 0x620155028217#48 = .ok (.cdec 0x17 0x0282 0x0155) := by rfl

/-- R34. -/
theorem test_decode_all_zero : decode 0x000000000000#48 = .error (.reservedOpcode 0x00) := by rfl
theorem test_decode_after_cdec : decode 0x630155028221#48 = .error (.reservedOpcode 0x63) := by rfl
/-- R22 item 3, the bytes of the CENC example. -/
theorem test_decode_bytes : decodeBytes [0x61, 0x01, 0x55, 0x02, 0x82, 0x48] = .ok (.cenc 0x48 0x0282 0x0155) := by rfl
theorem test_decode_short_bytes : decodeBytes [0x61, 0x01] = .error (.notSixBytes 2) := by rfl
theorem test_decodeTableWord : decodeTableWord 48 0x5000000282A5 = some (.encb 0xA5 0x0282) := by rfl

/-! ### Meanings -/

/-- R48 and section 5. -/
theorem test_permIp : outcomeOf (exec (.permIp 0x80) (ready 0x17)) = some (some ⟨false, 0x10#32⟩, 0x17) := by decide
theorem test_permIp_9C : outcomeOf (exec (.permIp 0x9C) (ready 0x17)) = some (some ⟨false, 0x5A#32⟩, 0x17) := by decide
/-- R49 and section 5. -/
theorem test_permIpinv : outcomeOf (exec (.permIpinv 0x10) (ready 0x17)) = some (some ⟨false, 0x80#32⟩, 0x17) := by decide
theorem test_permIpinv_A5 : outcomeOf (exec (.permIpinv 0xA5) (ready 0x17)) = some (some ⟨false, 0x63#32⟩, 0x17) := by decide
/-- R50, with discarded bits. -/
theorem test_permPc1 : outcomeOf (exec (.permPc1 0xFE82) (ready 0x17)) = some (some ⟨false, 0x20C#32⟩, 0x17) := by decide
theorem test_permPc1_155 : outcomeOf (exec (.permPc1 0x0155) (ready 0x17)) = some (some ⟨false, 0x0B3#32⟩, 0x17) := by decide
/-- R51. -/
theorem test_permPc2 : outcomeOf (exec (.permPc2 0x0038) (ready 0x17)) = some (some ⟨false, 0xA4#32⟩, 0x17) := by decide
theorem test_permPc2_top_bits : outcomeOf (exec (.permPc2 0x0300) (ready 0x17)) = some (some ⟨false, 0x00#32⟩, 0x17) := by decide
/-- R52, with discarded bits. -/
theorem test_permE : outcomeOf (exec (.permE 0xFA) (ready 0x17)) = some (some ⟨false, 0x55#32⟩, 0x17) := by decide
/-- R53. -/
theorem test_permP : outcomeOf (exec (.permP 0xF6) (ready 0x17)) = some (some ⟨false, 0xA#32⟩, 0x17) := by decide
theorem test_permP_1 : outcomeOf (exec (.permP 0x01) (ready 0x17)) = some (some ⟨false, 0x4#32⟩, 0x17) := by decide
/-- R57. -/
theorem test_sbox0 : outcomeOf (exec (.sbox0 0x09) (ready 0x17)) = some (some ⟨false, 3#32⟩, 0x17) := by decide
theorem test_sbox0_wide : outcomeOf (exec (.sbox0 0xF6) (ready 0x17)) = some (some ⟨false, 2#32⟩, 0x17) := by decide
/-- R58, and the entry S1_33 at its default (section 6). -/
theorem test_sbox1 : outcomeOf (exec (.sbox1 0x0D) (ready 0x17)) = some (some ⟨false, 0#32⟩, 0x17) := by decide
theorem test_sbox1_open_entry : outcomeOf (exec (.sbox1 0x0F) (ready 0x17)) = some (some ⟨false, 3#32⟩, 0x17) := by decide
/-- R62 and section 6. -/
theorem test_ksched : outcomeOf (exec (.ksched 0xFE82) (ready 0x17)) = some (some ⟨false, 0xA4432892#32⟩, 0x17) := by decide
theorem test_ksched_1F : outcomeOf (exec (.ksched 0x001F) (ready 0x17)) = some (some ⟨false, 0x6BAA9BA9#32⟩, 0x17) := by decide
/-- R69 and section 6. -/
theorem test_ffunc : outcomeOf (exec (.ffunc 0x05 0x0043) (ready 0x17)) = some (some ⟨false, 0xB#32⟩, 0x17) := by decide
theorem test_ffunc_wide : outcomeOf (exec (.ffunc 0xFC 0xFF01) (ready 0x17)) = some (some ⟨false, 0x7#32⟩, 0x17) := by decide
/-- R70 and section 6. -/
theorem test_fround : outcomeOf (exec (.fround 0x74 0x00A4) (ready 0x17)) = some (some ⟨false, 0x43#32⟩, 0x17) := by decide
theorem test_fround_A5 : outcomeOf (exec (.fround 0xA5 0xFF5A) (ready 0x17)) = some (some ⟨false, 0x5B#32⟩, 0x17) := by decide
/-- The source's vectors (sections 1 and 2): one of variable plaintext, one of variable key. -/
theorem test_encb_plaintext : outcomeOf (exec (.encb 0x80 0x0000) (ready 0x17)) = some (some ⟨false, 0xA8#32⟩, 0x17) := by decide +kernel
theorem test_encb_key : outcomeOf (exec (.encb 0x00 0x0004) (ready 0x17)) = some (some ⟨false, 0xD9#32⟩, 0x17) := by decide +kernel
/-- R77. -/
theorem test_decb : outcomeOf (exec (.decb 0x3D 0x0282) (ready 0x17)) = some (some ⟨false, 0xA5#32⟩, 0x17) := by decide +kernel
theorem test_decb_discarded : outcomeOf (exec (.decb 0x61 0xFE00) (ready 0x17)) = some (some ⟨false, 0x00#32⟩, 0x17) := by decide +kernel
/-- R80. -/
theorem test_cstart : outcomeOf (exec .cstart (ready 0x2E)) = some (some ⟨false, 0x9C#32⟩, 0x9C) := by decide
/-- R81 and program 4 step 1 of section 8. -/
theorem test_cenc : outcomeOf (exec (.cenc 0x48 0x0282 0x0155) (ready 0x9C)) = some (some ⟨false, 0x17#32⟩, 0x17) := by decide +kernel
theorem test_cenc_2E : outcomeOf (exec (.cenc 0x48 0x0282 0x0155) (ready 0x2E)) = some (some ⟨false, 0x78#32⟩, 0x78) := by decide +kernel
/-- R82 and program 4 step 5 of section 8. -/
theorem test_cdec : outcomeOf (exec (.cdec 0x17 0x0282 0x0155) (ready 0x9C)) = some (some ⟨false, 0x48#32⟩, 0x17) := by decide +kernel
theorem test_cdec_51 : outcomeOf (exec (.cdec 0x51 0x0282 0x0155) (ready 0x51)) = some (some ⟨false, 0x2F#32⟩, 0x51) := by decide +kernel

/-! ### The step -/

/-- Program 3 step 3 of section 8: `err` = 1, `resp` = 0, CHAIN unchanged. -/
theorem test_illegal_command :
    faultOf (step ((ready 0x17).drive (PortInput.present 0x000000000000#48))) =
      some ⟨0x17, true, some ⟨true, 0#32⟩, []⟩ := by decide
/-- R90, R95: the command after it runs. -/
theorem test_after_illegal_command :
    outcomeOf (step ((Fault.illegalCommand (ready 0x17)).resume.drive (PortInput.present 0x610555FE8269#48))) =
      some (some ⟨false, 0x51#32⟩, 0x51) := by decide +kernel
/-- R93: reset wins over a command. -/
theorem test_reset_wins :
    outcomeOf (step ((ready 0x78).drive ⟨true, some 0x610155028248#48⟩)) = some (none, 0x9C) := by decide
/-- R100, R104: a command presented before `cmd_ready` is 1 is not issued. -/
theorem test_not_ready : outcomeOf (step (State.reset.drive (PortInput.present 0x610155028248#48))) = some (none, 0x9C) := by decide
theorem test_withFetchWord :
    outcomeOf (step (State.reset.withFetchWord 48 0x610155028248)) = some (some ⟨false, 0x17#32⟩, 0x17) := by decide +kernel
/-- R36: `ENCB 0x80, 0xFE00` is assembled with `a` = 0xFE00. -/
theorem test_assemble : (AsmLine.command .encb 0x80 0xFE00 0).assemble = some [.encb 0x80 0xFE00] := by decide
/-- R37: with no bytes the expansion is CSTART alone. -/
theorem test_assemble_empty_message : (AsmLine.encryptMessage 0x0282 0x0155 []).assemble = some [.cstart] := by decide

/-! ### Witnesses: each statement's hypotheses can be met together -/

/-- A datapath that is ready and has the given command presented, with another input after it. -/
def presenting (w : Cmd) : State := ⟨0x17, true, none, [⟨false, some w⟩, PortInput.quiet]⟩

theorem witness_StepRunsTheDecodedCommand :
    (presenting 0x5000000282A5#48).cmdReady = true ∧
      (presenting 0x5000000282A5#48).inputs = ⟨false, some 0x5000000282A5#48⟩ :: [PortInput.quiet] ∧
      decode 0x5000000282A5#48 = .ok (.encb 0xA5 0x0282) := ⟨rfl, rfl, rfl⟩

/-- Both ends of each range of reserved opcodes (R34). -/
theorem witness_reservedOp_ends :
    ([0x00, 0x0F, 0x16, 0x1F, 0x22, 0x2F, 0x31, 0x3F, 0x42, 0x4F, 0x52, 0x5F, 0x63, 0xFF] : List (BitVec 8)).all reservedOp =
      true := by decide

/-- Both neighbours of each range of reserved opcodes are no reserved ones: the sixteen opcodes of the map (R33). -/
theorem witness_reservedOp_neighbours :
    ([0x10, 0x11, 0x12, 0x13, 0x14, 0x15, 0x20, 0x21, 0x30, 0x40, 0x41, 0x50, 0x51, 0x60, 0x61, 0x62] : List (BitVec 8)).any
      reservedOp = false := by decide

theorem witness_ReservedOpcodesRaiseIllegalCommand :
    reservedOp (cmdOp 0x630155028221#48) = true ∧ (presenting 0x630155028221#48).cmdReady = true ∧
      (presenting 0x630155028221#48).inputs = ⟨false, some 0x630155028221#48⟩ :: [PortInput.quiet] :=
  ⟨by decide, rfl, rfl⟩

theorem witness_ReservedOpcodesRaiseIllegalCommand_unreserved : reservedOp (cmdOp 0x620155028217#48) = false := by decide

theorem witness_ReservedOpcodesRaiseIllegalCommand_all_ones :
    (presenting 0xFFFFFFFFFFFF#48).cmdReady = true ∧ 0xFFFFFFFFFFFF#48 ∈ [0x000000000000#48, 0xFFFFFFFFFFFF#48] ∧
      (presenting 0xFFFFFFFFFFFF#48).inputs = ⟨false, some 0xFFFFFFFFFFFF#48⟩ :: [PortInput.quiet] :=
  ⟨rfl, by decide, rfl⟩

theorem witness_IllegalCommandIsPrecise : (ready 0x17).cmdReady = true ∧ reservedOp (cmdOp 0x160000000000#48) = true :=
  ⟨rfl, by decide⟩

theorem witness_ConsecutiveIllegalCommandsEachAnswered :
    (ready 0x17).cmdReady = true ∧
      ∀ w ∈ [0x000000000000#48, 0x5F0000000000#48, 0xFFFFFFFFFFFF#48], reservedOp (cmdOp w) = true := by
  refine ⟨rfl, ?_⟩
  simp only [List.mem_cons, List.not_mem_nil, or_false, forall_eq_or_imp, forall_eq]
  exact ⟨by decide, by decide, by decide⟩

theorem witness_OnlyReservedOpcodesFault :
    (presenting 0x310000000000#48).issues = some 0x310000000000#48 ∧ reservedOp (cmdOp 0x310000000000#48) = true :=
  ⟨by decide, by decide⟩

theorem witness_DecoderLooksAtOpcodeOnly :
    0x50FFFFFE0000#48 &&& 0xFF0000000000#48 = tableMatch .encb ∧ tableMatch .encb = tableMatch .encb := ⟨by decide, rfl⟩

theorem witness_DecodeOfEncodeIsTheCommand : decode 0x50FFFF020000#48 = .ok (.encb 0x00 0x0200) := rfl

theorem witness_IgnoredBitsHaveNoEffect :
    decode 0x500000020000#48 = .ok (.encb 0x00 0x0200) ∧
      0x500000020000#48 &&& readMask (Instr.encb 0x00 0x0200).mnemonic =
        0x50FFFFFE0000#48 &&& readMask (Instr.encb 0x00 0x0200).mnemonic := ⟨rfl, by decide⟩

theorem witness_CommandBytesAreBigEndian :
    cmdOfBytes [0x61, 0x01, 0x55, 0x02, 0x82, 0x48] = .ok 0x610155028248#48 := rfl

theorem witness_CommandBytesAreBigEndian_lengths :
    ([0x61, 0x01, 0x55, 0x02, 0x82, 0x48] : List Byte).length = 6 ∧ ([0x61, 0x01, 0x55, 0x02, 0x82] : List Byte).length ≠ 6 ∧
      ([0x61, 0x01, 0x55, 0x02, 0x82, 0x48, 0x00] : List Byte).length ≠ 6 := by decide

/-- The first number too wide for each field of a pseudo-command (R36, R37). -/
theorem witness_AssemblerFillsTheFields_messages :
    (0xFFFF < 0x10000 ∨ 0xFFFF < 0 ∨ ∃ x ∈ ([] : List Nat), 0xFF < x) ∧
      (0xFFFF < 0xFFFF ∨ 0xFFFF < 0x10000 ∨ ∃ x ∈ [0xFF], 0xFF < x) ∧
      (0xFFFF < 0 ∨ 0xFFFF < 0 ∨ ∃ x ∈ [0xFF, 0x100], 0xFF < x) := by decide

theorem witness_AssemblerFillsTheFields :
    (AsmLine.command .cenc 0xFF 0xFFFF 0xFFFF).wellFormed = true ∧
      (0xFF < 0x100 ∨ 0xFFFF < 0 ∨ 0xFFFF < 0) ∧ (0xFF < 0 ∨ 0xFFFF < 0x10000 ∨ 0xFFFF < 0) ∧
      (0xFF < 0 ∨ 0xFFFF < 0 ∨ 0xFFFF < 0x10000) := by decide

theorem witness_usesChain : usesChain (Instr.decb 0x3D 0x0282).mnemonic = false := rfl

theorem witness_RepeatedCommands : Instr.cstart.mnemonic ≠ .cenc ∧ Instr.cstart.mnemonic ≠ .cdec := by decide

theorem witness_ResetEdgeAndStartUp :
    (⟨0x78, true, none, [⟨true, some 0x610155028248#48⟩]⟩ : State).inputs = ⟨true, some 0x610155028248#48⟩ :: [] ∧
      State.reset.cmdReady = false ∧
      (State.reset.drive (PortInput.present 0x610155028248#48)).cmdReady = false ∧
      (State.reset.drive (PortInput.present 0x610155028248#48)).inputs = ⟨false, some 0x610155028248#48⟩ :: [] :=
  ⟨rfl, rfl, rfl, rfl⟩

theorem witness_StepKeepsInvariant : (⟨0x17, true, some ⟨true, 0#32⟩, [⟨true, none⟩]⟩ : State).Inv :=
  ⟨by simp, by simp⟩

theorem witness_ResponseExactlyWhenIssued :
    (ready 0x17).issues = none ∧ (ready 0x17).portInput.rst = false ∧
      (State.reset.drive (PortInput.present 0x610155028248#48)).issues = none := by decide

theorem witness_ResponseExactlyWhenIssued_nothing_presented :
    (⟨0x17, true, some ⟨true, 0#32⟩, [PortInput.quiet]⟩ : State).cmdReady = true ∧
      (⟨0x17, true, some ⟨true, 0#32⟩, [PortInput.quiet]⟩ : State).inputs = ⟨false, none⟩ :: [] ∧
      (ready 0x17).cmdReady = true ∧ (ready 0x17).inputs = [] := ⟨rfl, rfl, rfl, rfl⟩

theorem witness_ResetEdgeAndStartUp_nothing_presented : State.reset.cmdReady = false ∧ State.reset.inputs = [] := ⟨rfl, rfl⟩

/-- Two ready datapaths that differ in all but CHAIN; and one whose CHAIN is what a CSTART before left. -/
theorem witness_ResponsesDependOnThePastThroughChainAlone :
    (ready 0x17).cmdReady = true ∧ (presenting 0x5000000282A5#48).cmdReady = true ∧
      (ready 0x17).chain = (presenting 0x5000000282A5#48).chain ∧
      (ready 0x9C).chain = (runProgram [0x600000000000#48] (ready 0x17)).2.chain := ⟨rfl, rfl, rfl, by decide⟩

theorem witness_ready : (ready 0x17).cmdReady = true := rfl

theorem witness_LegalRunsNeverStop :
    (⟨0x17, true, none, [⟨true, some 0xFFFFFFFFFFFF#48⟩, ⟨false, some 0x610155028248#48⟩, ⟨false, none⟩]⟩ : State).LegalInputs := by
  simp only [State.LegalInputs, PortInput.Legal, List.mem_cons, List.not_mem_nil, or_false, forall_eq_or_imp, forall_eq]
  exact ⟨.inl trivial, .inr (by rintro _ ⟨⟩; decide), .inr (by simp)⟩

theorem witness_PermuteSelectsNumberedBits : 1 - 1 < 8 ∧ 1 ≤ 1 ∧ 8 - 1 < 8 ∧ 1 ≤ 8 ∧ IP.entries.toList = [2, 6, 3, 1, 4, 8, 5, 7] := by decide

theorem witness_KeyScheduleIsInjective : kSched 0x282#10 = kSched 0x282#10 := rfl

theorem witness_RoundIsItsOwnInverseUpToSwap : permute E 0x0#4 ^^^ 0x00#8 = permute E 0xF#4 ^^^ 0xFF#8 := by decide

theorem witness_BlockCipherRoundTrip : ∀ b : Byte, permute IP (permute IPINV b) = b ∧ permute IPINV (permute IP b) = b := by decide

theorem witness_palindromicKeys :
    cut 0xFC00#16 0 10 ∈ palindromicKeys ∧ cut 0x01E8#16 0 10 ∈ palindromicKeys ∧ cut 0x0217#16 0 10 ∈ palindromicKeys ∧
      cut 0x03FF#16 0 10 ∈ palindromicKeys ∧ cut 0x01E8#16 0 10 = cut 0xFDE8#16 0 10 := by decide

/-- Programs 3 and 2 of section 8: all of program 3, with its ignored fields, masked keys and reserved words, is the expansion of
ENCRYPT up to ignored bits, and a decryption with a KSCHED in between. -/
theorem witness_ProgramsComputeTheChainedCipher :
    (([0x60DEADBEEF77#48, 0x610155028248#48, 0x000000000000#48, 0x610555FE8269#48, 0x630155028221#48, 0x50FFFF020000#48,
        0xFFFFFFFFFFFF#48, 0x614155828221#48].filter chainWord).map chainBits =
      (encryptProgram 0x0282 0x0155 [0x48, 0x69, 0x21]).map (fun i => chainBits (encode i))) ∧
    (([0x600000000000#48, 0x620155028217#48, 0x300000028200#48].filter chainWord).map chainBits =
      (decryptProgram 0x0282 0x0155 [0x17]).map (fun i => chainBits (encode i))) := by decide

/-- The empty message, where both expansions are CSTART alone (R37). -/
theorem witness_ProgramsComputeTheChainedCipher_empty :
    (([0x60DEADBEEF77#48, 0x500000020000#48].filter chainWord).map chainBits =
      (encryptProgram 0x0282 0x0155 []).map (fun i => chainBits (encode i))) ∧
    (([0x60DEADBEEF77#48, 0x500000020000#48].filter chainWord).map chainBits =
      (decryptProgram 0x0282 0x0155 []).map (fun i => chainBits (encode i))) := by decide

theorem witness_ChangedCiphertextByteChangesTwoPlaintextBytes :
    ([0x17, 0x51, 0x2E] : List Byte)[0]? = some 0x17 ∧ ([0x17, 0x51, 0x2E] : List Byte)[2]? = some 0x2E ∧
      (0x50 : Byte) ≠ 0x17 ∧ (0x50 : Byte) ≠ 0x2E := by decide

theorem witness_ChainedCipherRoundTrip : 2 ≠ 0 ∧ 2 ≠ 0 + 1 := by decide

end Sys2Proof.Tests
end

/-! PROOFS. 00_scope.md: the step is the atomic execution of the decoded command (R2, R38). -/

namespace Sys2Proof.Machine

/-- The step that issues a decodable command word (R38), by the state's list of inputs. -/
theorem step_of_issued {s : State} {w : Cmd} {i : Instr} {rest : List PortInput} (hready : s.cmdReady = true)
    (hin : s.inputs = PortInput.present w :: rest) (hdec : decode w = .ok i) : step s = exec i { s with inputs := rest } := by
  have hport : s.portInput = PortInput.present w := State.portInput_of_inputs hin
  have hrst : s.portInput.rst = false := congrArg PortInput.rst hport
  have hcmd : s.portInput.cmd = some w := congrArg PortInput.cmd hport
  rw [step_of_command hrst hready hcmd, runCommand_of_decode hdec, State.takeInput_of_inputs hin]

/-- The table numbers the bits of a command word as R30 does (notes/assumptions/10.md). -/
@[simp] theorem tableWord_toNat (w : Cmd) : tableWord 48 w.toNat = w := by
  rw [tableWord, Nat.mod_eq_of_lt w.isLt, BitVec.ofNat_toNat, BitVec.setWidth_eq]

theorem decodeTableWord_toNat (w : Cmd) : decodeTableWord 48 w.toNat = (decode w).toOption := by
  simp [decodeTableWord]

theorem State.withFetchWord_toNat (s : State) (w : Cmd) :
    s.withFetchWord 48 w.toNat = { s.drive (PortInput.present w) with cmdReady := true } := by
  simp [State.withFetchWord]

theorem step_withFetchWord {w : Cmd} {i : Instr} (hdec : decode w = .ok i) (s : State) :
    step (s.withFetchWord 48 w.toNat) = exec i { s with cmdReady := true } := by
  rw [State.withFetchWord_toNat]
  exact step_of_issued rfl rfl hdec

/-- Settles O1: an issued word runs through `step_of_issued`, and `withFetchWord` makes the row's word the next issued one. -/
theorem stepRunsTheDecodedCommand : Obligations.StepRunsTheDecodedCommand := by
  refine ⟨fun s w i rest hready hin hdec => step_of_issued hready hin hdec,
    fun s w i hdec => ⟨step_withFetchWord hdec s, ?_⟩⟩
  rw [decodeTableWord_toNat, hdec]
  rfl

end Sys2Proof.Machine

/-! PROOFS. 10_state.md: the thirteen commands that neither read nor write CHAIN (R10, R19). -/

namespace Sys2Proof.Machine

open Sys2Proof.Claims

/-- A result alone is presented: `respond` is `answered` with CHAIN kept. -/
theorem State.respond_eq_answered (s : State) {w : Nat} (result : BitVec w) :
    s.respond result = answered s s.chain (zext32 result) := rfl

/-- The meaning of a command outside the pipe is one `respond`, of a result made from the operands before any state is given. -/
theorem exec_eq_respond_of_chainFree {i : Instr} (hfree : usesChain i.mnemonic = false) :
    ∃ (w : Nat) (result : BitVec w), ∀ s : State, exec i s = .next (s.respond result) := by
  cases i with
  | cstart | cenc | cdec => cases hfree
  | permIp | permIpinv | permPc1 | permPc2 | permE | permP | sbox0 | sbox1 | ksched | ffunc | fround | encb | decb =>
    exact ⟨_, _, fun _ => rfl⟩

/-- Settles O13: such a command's result is fixed before the state is, and `respond` keeps all but the response. -/
theorem chainFreeCommandsDoNotSeeTheState : Obligations.ChainFreeCommandsDoNotSeeTheState := by
  intro i hfree
  obtain ⟨w, result, hexec⟩ := exec_eq_respond_of_chainFree hfree
  exact ⟨zext32 result, fun s => (hexec s).trans (congrArg _ (s.respond_eq_answered result))⟩

end Sys2Proof.Machine

/-! PROOFS. 20_memory.md: the order of bytes (R22), repeated commands (R24) and what responses depend on (R25). -/

namespace Sys2Proof

/-- A part of a part of a value is a part of the value. -/
theorem extractLsb'_extractLsb' {w start len start' len' : Nat} (v : BitVec w) (hle : start' + len' ≤ len) :
    (v.extractLsb' start len).extractLsb' start' len' = v.extractLsb' (start + start') len' := by
  apply BitVec.eq_of_getLsbD_eq
  intro i hi
  have hin : start' + i < len := by omega
  simp [BitVec.getLsbD_extractLsb', hin, Nat.add_assoc]

/-- The bytes of a word are its fields in order, `b` and `a` as two bytes each (R22 item 3, R30). -/
theorem cmdToBytes_eq_fields (w : Cmd) :
    cmdToBytes w = [cmdOp w, (cmdB w).extractLsb 15 8, (cmdB w).extractLsb 7 0,
      (cmdA w).extractLsb 15 8, (cmdA w).extractLsb 7 0, cmdD w] := by
  simp [cmdToBytes, cmdOp, cmdB, cmdA, cmdD, BitVec.extractLsb, extractLsb'_extractLsb']

@[simp] theorem highByte_append (hi lo : Byte) : (hi ++ lo : KeyField).extractLsb 15 8 = hi :=
  BitVec.extractLsb'_append_eq_left

@[simp] theorem lowByte_append (hi lo : Byte) : (hi ++ lo : KeyField).extractLsb 7 0 = lo :=
  BitVec.extractLsb'_append_eq_right

@[simp] theorem highByte_append_lowByte (a : KeyField) : (a.extractLsb 15 8 ++ a.extractLsb 7 0 : KeyField) = a :=
  BitVec.extractLsb'_append_extractLsb' (w := 8) (len := 8)

/-- A word is the word of its four fields (R30). -/
@[simp] theorem cmdWord_fields (w : Cmd) : cmdWord (cmdOp w) (cmdB w) (cmdA w) (cmdD w) = w := by
  have hopB : cmdOp w ++ cmdB w = w.extractLsb 47 24 := BitVec.extractLsb'_append_extractLsb'_eq_extractLsb' rfl
  have hopBA : w.extractLsb 47 24 ++ cmdA w = w.extractLsb 47 8 := BitVec.extractLsb'_append_extractLsb'_eq_extractLsb' rfl
  rw [cmdWord, hopB, hopBA]
  exact BitVec.extractLsb'_append_extractLsb' (w := 40) (len := 8)

/-- Six bytes carry the word whose 16-bit fields are their middle pairs, most significant first (R22 item 3). -/
theorem cmdOfBytes_eq_cmdWord (op bHi bLo aHi aLo d : Byte) :
    cmdOfBytes [op, bHi, bLo, aHi, aLo, d] = .ok (cmdWord op (bHi ++ bLo) (aHi ++ aLo) d) := by
  have hb : op ++ bHi ++ bLo = op ++ (bHi ++ bLo) := BitVec.append_assoc
  have ha : op ++ (bHi ++ bLo) ++ aHi ++ aLo = op ++ (bHi ++ bLo) ++ (aHi ++ aLo) := BitVec.append_assoc
  rw [cmdOfBytes, hb, ha]
  rfl

/-- The word of six bytes goes as those bytes (R22 item 3). -/
theorem cmdToBytes_cmdWord (op bHi bLo aHi aLo d : Byte) :
    cmdToBytes (cmdWord op (bHi ++ bLo) (aHi ++ aLo) d) = [op, bHi, bLo, aHi, aLo, d] := by
  simp [cmdToBytes_eq_fields]

theorem cmdOfBytes_cmdToBytes (w : Cmd) : cmdOfBytes (cmdToBytes w) = .ok w := by
  rw [cmdToBytes_eq_fields, cmdOfBytes_eq_cmdWord, highByte_append_lowByte, highByte_append_lowByte, cmdWord_fields]

theorem exists_cmdOfBytes_of_length_eq_six {bytes : List Byte} (h : bytes.length = 6) :
    ∃ w, cmdOfBytes bytes = .ok w ∧ cmdToBytes w = bytes :=
  match bytes, h with
  | [op, bHi, bLo, aHi, aLo, d], _ =>
    ⟨_, cmdOfBytes_eq_cmdWord op bHi bLo aHi aLo d, cmdToBytes_cmdWord op bHi bLo aHi aLo d⟩

theorem cmdOfBytes_of_length_ne_six {bytes : List Byte} (h : bytes.length ≠ 6) :
    cmdOfBytes bytes = .error (.notSixBytes bytes.length) := by
  unfold cmdOfBytes
  split
  · exact absurd rfl h
  · rfl

/-- A response's bytes by shifts: the most significant goes first (R22 item 3). -/
theorem respToBytes_eq_shifts (r : Resp) :
    respToBytes r = [(r >>> 24).setWidth 8, (r >>> 16).setWidth 8, (r >>> 8).setWidth 8, r.setWidth 8] := by
  simp only [respToBytes, BitVec.extractLsb, BitVec.setWidth_ushiftRight_eq_extractLsb]
  rw [BitVec.setWidth_eq_extractLsb' (by decide)]

end Sys2Proof

namespace Sys2Proof.Machine

open Sys2Proof.Claims

/-- Settles O10: the two round trips go through the four fields of the word, and the 16-bit ones through their two bytes. -/
theorem commandBytesAreBigEndian : Obligations.CommandBytesAreBigEndian :=
  ⟨cmdOfBytes_cmdToBytes, fun _ => exists_cmdOfBytes_of_length_eq_six, cmdToBytes_cmdWord, respToBytes_eq_shifts,
    fun _ => cmdOfBytes_of_length_ne_six⟩

/-- Zero-extension to a response loses nothing, so equal responses have equal results (R32). -/
theorem Response.ok_inj {w : Nat} (hw : w ≤ 32) {x y : BitVec w} : Response.ok x = Response.ok y ↔ x = y := by
  refine ⟨fun h => ?_, congrArg Response.ok⟩
  have hresp : x.setWidth 32 = y.setWidth 32 := congrArg Response.resp h
  simpa [BitVec.setWidth_setWidth_of_le _ hw] using congrArg (BitVec.setWidth w) hresp

/-- CSTART writes the initialisation value over CHAIN and answers it (R80). -/
theorem exec_cstart (s : State) : exec .cstart s = .next ((s.setChain IV).respond IV) := rfl

/-- CDEC answers the byte deciphered under `k2` then `k1`, xor the old CHAIN, and CHAIN becomes `d` (R82). -/
theorem exec_cdec (d : Byte) (a b : KeyField) (s : State) :
    exec (.cdec d a b) s = .next ((s.setChain d).respond (decB config (decB config d b) a ^^^ s.chain)) := rfl

/-- All but CENC and CDEC: CHAIN is kept or set to a constant, and the answer is fixed before the state is (R24). -/
theorem exec_idempotent {i : Instr} (hcenc : i.mnemonic ≠ .cenc) (hcdec : i.mnemonic ≠ .cdec) (s : State) :
    ∃ t, exec i s = .next t ∧ exec i t = .next t := by
  cases huses : usesChain i.mnemonic with
  | false =>
    obtain ⟨w, result, hexec⟩ := exec_eq_respond_of_chainFree huses
    exact ⟨s.respond result, hexec s, hexec (s.respond result)⟩
  | true =>
    cases i with
    | cstart => exact ⟨_, exec_cstart s, exec_cstart _⟩
    | cenc => exact absurd rfl hcenc
    | cdec => exact absurd rfl hcdec
    | permIp | permIpinv | permPc1 | permPc2 | permE | permP | sbox0 | sbox1 | ksched | ffunc | fround | encb | decb =>
      cases huses

/-- Two results of CDEC with the same fields differ exactly when the CHAIN they were mixed with did (R82). -/
theorem exec_cdec_repeated (d : Byte) (a b : KeyField) (s : State) : ∃ t u,
    exec (.cdec d a b) s = .next t ∧ exec (.cdec d a b) t = .next u ∧
      (u.response ≠ t.response ↔ s.chain ≠ d) ∧ t.chain = d ∧ u.chain = d := by
  refine ⟨_, _, exec_cdec d a b s, exec_cdec d a b _, not_congr ?_, rfl, rfl⟩
  simp only [State.respond_response, State.respond_chain, State.setChain_chain, Option.some_inj,
    Response.ok_inj (by decide : 8 ≤ 32), BitVec.xor_right_inj]
  exact eq_comm

/-- Settles O14: `exec_idempotent` for all but CENC and CDEC, and `exec_cdec_repeated`. -/
theorem repeatedCommands : Obligations.RepeatedCommands :=
  ⟨fun _ => exec_idempotent, exec_cdec_repeated⟩

/-- What a step presents and the CHAIN and `cmd_ready` it leaves are functions of the CHAIN and `cmd_ready` before it (R19). -/
theorem serve_agrees_of_chain (p : PortInput) {s t : State} (hready : s.cmdReady = t.cmdReady) (hchain : s.chain = t.chain) :
    (serve p s).response = (serve p t).response ∧ (serve p s).chain = (serve p t).chain ∧
      (serve p s).cmdReady = (serve p t).cmdReady := by
  rw [serve_eq_of_chain p hready hchain]
  exact ⟨rfl, rfl, rfl⟩

/-- What a session answers, and the CHAIN and `cmd_ready` it leaves, are functions of the CHAIN and `cmd_ready` it starts from
(R19, R25). -/
theorem session_agrees_of_chain (ps : List PortInput) {s t : State} (hready : s.cmdReady = t.cmdReady)
    (hchain : s.chain = t.chain) :
    (session ps s).1 = (session ps t).1 ∧ (session ps s).2.chain = (session ps t).2.chain ∧
      (session ps s).2.cmdReady = (session ps t).2.cmdReady := by
  induction ps generalizing s t with
  | nil => exact ⟨rfl, hchain, hready⟩
  | cons p ps ih =>
    obtain ⟨hresponse, hchain', hready'⟩ := serve_agrees_of_chain p hready hchain
    obtain ⟨hlater, hend⟩ := ih hready' hchain'
    exact ⟨by simp only [session, hresponse, hlater], hend⟩

/-- A ready datapath is ready again after any command, a faulting one too (R38, R95). -/
theorem serve_present_cmdReady (w : Cmd) {s : State} (hready : s.cmdReady = true) :
    (serve (PortInput.present w) s).cmdReady = true := by
  cases hop : Mnemonic.ofOpcode (cmdOp w) with
  | none => rw [serve_reserved hready hop, State.presentFault_cmdReady, hready]
  | some m =>
    have hdec := decode_of_ofOpcode hop
    obtain ⟨c, r, hexec, -⟩ := exec_shape (m.instr (cmdD w) (cmdA w) (cmdB w)) s
    rw [serve_command hready hdec hexec, hready]

/-- A ready datapath is ready after any program (R38, R95). -/
theorem runProgram_cmdReady (ws : List Cmd) {s : State} (hready : s.cmdReady = true) :
    (runProgram ws s).2.cmdReady = true := by
  induction ws generalizing s with
  | nil => exact hready
  | cons w ws ih => rw [runProgram_cons]; exact ih (serve_present_cmdReady w hready)

/-- A program after another runs from the state that the other left (R25). -/
theorem runProgram_append (ws vs : List Cmd) (s : State) :
    runProgram (ws ++ vs) s =
      ((runProgram ws s).1 ++ (runProgram vs (runProgram ws s).2).1, (runProgram vs (runProgram ws s).2).2) := by
  simp only [runProgram, List.map_append, session_append]

/-- Settles O20: `session_agrees_of_chain`, from the two states given and from what a program left. -/
theorem responsesDependOnThePastThroughChainAlone : Obligations.ResponsesDependOnThePastThroughChainAlone := by
  refine ⟨fun ps s t hs ht hchain => session_agrees_of_chain ps (hs.trans ht.symm) hchain, fun ws w s t hs ht hchain => ?_⟩
  have hready : (runProgram ws s).2.cmdReady = t.cmdReady := (runProgram_cmdReady ws hs).trans ht.symm
  obtain ⟨hlast, -⟩ := session_agrees_of_chain ([w].map PortInput.present) hready hchain.symm
  rw [runProgram_append]
  exact congrArg ((runProgram ws s).1 ++ ·) hlast

end Sys2Proof.Machine

/-! PROOFS. 30_encoding.md: the fields of a word and the encoder (R30, R33, R36). -/

namespace Sys2Proof

open Sys2Proof.Claims

variable (op op' : BitVec 8) (b b' a a' : KeyField) (d d' : Byte)

/-- Masking a word is masking each of its fields (R30). -/
theorem cmdWord_and :
    cmdWord op b a d &&& cmdWord op' b' a' d' = cmdWord (op &&& op') (b &&& b') (a &&& a') (d &&& d') := by
  have happend : (op ++ b ++ a ++ d) &&& (op' ++ b' ++ a' ++ d') = (op &&& op') ++ (b &&& b') ++ (a &&& a') ++ (d &&& d') := by
    simp only [BitVec.and_append]
  exact happend

@[simp] theorem cmdOp_and (w v : Cmd) : cmdOp (w &&& v) = cmdOp w &&& cmdOp v := BitVec.extractLsb'_and

@[simp] theorem cmdB_and (w v : Cmd) : cmdB (w &&& v) = cmdB w &&& cmdB v := BitVec.extractLsb'_and

@[simp] theorem cmdA_and (w v : Cmd) : cmdA (w &&& v) = cmdA w &&& cmdA v := BitVec.extractLsb'_and

@[simp] theorem cmdD_and (w v : Cmd) : cmdD (w &&& v) = cmdD w &&& cmdD v := BitVec.extractLsb'_and

/-- A field of the textual form: the value written for it, or zero where the command does not write it (R36). -/
def writtenField {w : Nat} (written : Bool) (v : BitVec w) : BitVec w := if written then v else 0#w

/-- The mask of a field is all ones where the field is written and zero where it is not. -/
theorem and_writtenField_allOnes {w : Nat} (written : Bool) (v : BitVec w) :
    v &&& writtenField written (BitVec.allOnes w) = writtenField written v := by
  cases written with
  | false => exact BitVec.and_zero
  | true => exact BitVec.and_allOnes

/-- A number is the field's value where the field is written, and where it is zero. -/
theorem writtenField_ofNat {w n : Nat} {written : Bool} (h : written = true ∨ n = 0) :
    writtenField written (BitVec.ofNat w n) = BitVec.ofNat w n := by
  obtain rfl | rfl := h
  · rfl
  · exact ite_self _

/-- The encoder fills the fields of the textual form and leaves the others zero (R36). -/
theorem encode_instr (m : Mnemonic) : encode (m.instr d a b) =
    cmdWord m.opcode (writtenField m.form.b b) (writtenField m.form.a a) (writtenField m.form.d d) := by
  cases m <;> rfl

/-- A field that the textual form does not write is no operand of the command (R31, R36). -/
theorem instr_writtenField (m : Mnemonic) :
    m.instr (writtenField m.form.d d) (writtenField m.form.a a) (writtenField m.form.b b) = m.instr d a b := by
  cases m <;> rfl

/-- Every command is its mnemonic's, with some fields. -/
theorem Instr.exists_eq_instr (i : Instr) : ∃ (d : Byte) (a b : KeyField), i = i.mnemonic.instr d a b := by
  cases i with
  | cstart => exact ⟨0, 0, 0, rfl⟩
  | permIp d | permIpinv d | permE d | permP d | sbox0 d | sbox1 d => exact ⟨d, 0, 0, rfl⟩
  | permPc1 a | permPc2 a | ksched a => exact ⟨0, a, 0, rfl⟩
  | ffunc d a | fround d a | encb d a | decb d a => exact ⟨d, a, 0, rfl⟩
  | cenc d a b | cdec d a b => exact ⟨d, a, b, rfl⟩

theorem decode_encode (i : Instr) : decode (encode i) = .ok i := by
  obtain ⟨d, a, b, hi⟩ := i.exists_eq_instr
  rw [hi, encode_instr, decode_cmdWord, instr_writtenField]

/-- The mask of a textual form is `op` and the fields that the form writes, whole (R36). -/
theorem formMask_eq_cmdWord (m : Mnemonic) : formMask m = cmdWord (BitVec.allOnes 8)
    (writtenField m.form.b (BitVec.allOnes 16)) (writtenField m.form.a (BitVec.allOnes 16))
    (writtenField m.form.d (BitVec.allOnes 8)) := by
  cases m <;> rfl

theorem encode_of_decode {w : Cmd} {i : Instr} (h : decode w = .ok i) : encode i = w &&& formMask i.mnemonic := by
  obtain ⟨m, hop, rfl⟩ := decode_ok_iff.1 h
  calc encode (m.instr (cmdD w) (cmdA w) (cmdB w))
    _ = cmdWord (cmdOp w) (writtenField m.form.b (cmdB w)) (writtenField m.form.a (cmdA w))
          (writtenField m.form.d (cmdD w)) := by rw [encode_instr, Mnemonic.opcode_of_ofOpcode hop]
    _ = cmdWord (cmdOp w) (cmdB w) (cmdA w) (cmdD w) &&& formMask m := by
      simp only [formMask_eq_cmdWord, cmdWord_and, and_writtenField_allOnes, BitVec.and_allOnes]
    _ = w &&& formMask _ := by rw [cmdWord_fields, Mnemonic.mnemonic_instr]

/-- Settles O7: `decode_encode` and `encode_of_decode`, both through the four fields of a word. -/
theorem decodeOfEncodeIsTheCommand : Obligations.DecodeOfEncodeIsTheCommand :=
  ⟨decode_encode, fun _ _ => encode_of_decode⟩

/-- A row of the opcode table is its opcode with all other fields zero (R33). -/
theorem tableMatch_eq_cmdWord (m : Mnemonic) : tableMatch m = cmdWord m.opcode 0 0 0 := by
  cases m <;> rfl

/-- The table's mask keeps `op` and clears the other fields (R33). -/
theorem and_opcodeMask (w : Cmd) : w &&& 0xFF0000000000#48 = cmdWord (cmdOp w) 0 0 0 := by
  calc w &&& 0xFF0000000000#48
    _ = cmdWord (cmdOp w) (cmdB w) (cmdA w) (cmdD w) &&& cmdWord (BitVec.allOnes 8) 0 0 0 := by rw [cmdWord_fields]; rfl
    _ = cmdWord (cmdOp w) 0 0 0 := by rw [cmdWord_and, BitVec.and_allOnes]; simp

/-- Words that are zero but for `op` are equal where their opcodes are. -/
theorem cmdWord_zero_inj {op op' : BitVec 8} : cmdWord op 0 0 0 = cmdWord op' 0 0 0 ↔ op = op' :=
  ⟨fun h => by simpa using congrArg cmdOp h, fun h => h ▸ rfl⟩

/-- A word decodes to a command of the mnemonic whose opcode it has (R33). -/
theorem decode_mnemonic_iff {w : Cmd} {m : Mnemonic} : (∃ i, decode w = .ok i ∧ i.mnemonic = m) ↔ cmdOp w = m.opcode := by
  constructor
  · rintro ⟨i, hdec, rfl⟩
    obtain ⟨m, hop, rfl⟩ := decode_ok_iff.1 hdec
    rw [Mnemonic.mnemonic_instr, Mnemonic.opcode_of_ofOpcode hop]
  · intro hop
    exact ⟨_, decode_of_ofOpcode (Mnemonic.ofOpcode_eq_some_iff.2 hop.symm), Mnemonic.mnemonic_instr ..⟩

/-- Settles O6: mask and match compare `op` alone, and the opcode map is injective. -/
theorem decoderLooksAtOpcodeOnly : Obligations.DecoderLooksAtOpcodeOnly := by
  refine ⟨fun w m => ?_, fun m m' h => ?_⟩
  · rw [decode_mnemonic_iff, and_opcodeMask, tableMatch_eq_cmdWord, cmdWord_zero_inj]
  · rw [tableMatch_eq_cmdWord, tableMatch_eq_cmdWord, cmdWord_zero_inj] at h
    exact Mnemonic.opcode_injective h

/-- Settles O8: the decoder is evaluated on each word. -/
theorem exampleWordsDecode : Obligations.ExampleWordsDecode :=
  ⟨rfl, rfl, rfl, rfl, rfl, rfl, rfl⟩

end Sys2Proof

/-! PROOFS. 30_encoding.md: the textual form (R36, R37). -/

namespace Sys2Proof

open Sys2Proof.Machine Sys2Proof.Claims

theorem AsmLine.assemble_eq_none {l : AsmLine} (h : l.wellFormed = false) : l.assemble = none := by
  simp [AsmLine.assemble, h]

theorem AsmLine.wellFormed_command_iff {m : Mnemonic} {d a b : Nat} : (AsmLine.command m d a b).wellFormed = true ↔
    (d ≤ 0xFF ∧ a ≤ 0xFFFF ∧ b ≤ 0xFFFF) ∧
      (m.form.d = true ∨ d = 0) ∧ (m.form.a = true ∨ a = 0) ∧ (m.form.b = true ∨ b = 0) := by
  simp [AsmLine.wellFormed, fitsField, Nat.lt_succ_iff, and_assoc]

theorem AsmLine.wellFormed_encryptMessage_iff {k1 k2 : Nat} {p : List Nat} :
    (AsmLine.encryptMessage k1 k2 p).wellFormed = true ↔ (k1 ≤ 0xFFFF ∧ k2 ≤ 0xFFFF) ∧ ∀ x ∈ p, x ≤ 0xFF := by
  simp [AsmLine.wellFormed, fitsField, Nat.lt_succ_iff]

/-- DECRYPT is checked as ENCRYPT is (R37). -/
theorem AsmLine.wellFormed_decryptMessage (k1 k2 : Nat) (p : List Nat) :
    (AsmLine.decryptMessage k1 k2 p).wellFormed = (AsmLine.encryptMessage k1 k2 p).wellFormed := rfl

/-- The numbers of a well-formed line go whole into the fields of its command's word (R36). -/
theorem AsmLine.assemble_command {m : Mnemonic} {d a b : Nat} (h : (AsmLine.command m d a b).wellFormed = true) :
    ∃ i, (AsmLine.command m d a b).assemble = some [i] ∧
      encode i = cmdWord m.opcode (BitVec.ofNat 16 b) (BitVec.ofNat 16 a) (BitVec.ofNat 8 d) := by
  obtain ⟨-, hd, ha, hb⟩ := AsmLine.wellFormed_command_iff.1 h
  refine ⟨_, if_pos h, ?_⟩
  rw [encode_instr, writtenField_ofNat hd, writtenField_ofNat ha, writtenField_ofNat hb]

theorem AsmLine.assemble_command_tooWide {m : Mnemonic} {d a b : Nat} (h : 0xFF < d ∨ 0xFFFF < a ∨ 0xFFFF < b) :
    (AsmLine.command m d a b).assemble = none := by
  refine AsmLine.assemble_eq_none (Bool.eq_false_iff.2 fun hwf => ?_)
  obtain ⟨hfits, -⟩ := AsmLine.wellFormed_command_iff.1 hwf
  omega

theorem AsmLine.wellFormed_message_tooWide {k1 k2 : Nat} {p : List Nat}
    (h : 0xFFFF < k1 ∨ 0xFFFF < k2 ∨ ∃ x ∈ p, 0xFF < x) : (AsmLine.encryptMessage k1 k2 p).wellFormed = false := by
  refine Bool.eq_false_iff.2 fun hwf => ?_
  obtain ⟨⟨hk1, hk2⟩, hp⟩ := AsmLine.wellFormed_encryptMessage_iff.1 hwf
  obtain hlt | hlt | ⟨x, hx, hlt⟩ := h
  · omega
  · omega
  · exact absurd (hp x hx) (Nat.not_le.2 hlt)

/-- Values of the fields' own widths fit them. -/
theorem AsmLine.wellFormed_message_toNat (k1 k2 : KeyField) (p : List Byte) :
    (AsmLine.encryptMessage k1.toNat k2.toNat (p.map BitVec.toNat)).wellFormed = true := by
  refine AsmLine.wellFormed_encryptMessage_iff.2 ⟨⟨by omega, by omega⟩, List.forall_mem_map.2 fun x _ => ?_⟩
  omega

theorem map_ofNat_map_toNat (p : List Byte) : (p.map BitVec.toNat).map (BitVec.ofNat 8) = p := by
  simp [Function.comp_def]

theorem AsmLine.assemble_encryptMessage (k1 k2 : KeyField) (p : List Byte) :
    (AsmLine.encryptMessage k1.toNat k2.toNat (p.map BitVec.toNat)).assemble = some (encryptProgram k1 k2 p) := by
  rw [AsmLine.assemble, if_pos (AsmLine.wellFormed_message_toNat k1 k2 p), map_ofNat_map_toNat]
  simp

theorem AsmLine.assemble_decryptMessage (k1 k2 : KeyField) (c : List Byte) :
    (AsmLine.decryptMessage k1.toNat k2.toNat (c.map BitVec.toNat)).assemble = some (decryptProgram k1 k2 c) := by
  rw [AsmLine.assemble, AsmLine.wellFormed_decryptMessage, if_pos (AsmLine.wellFormed_message_toNat k1 k2 c),
    map_ofNat_map_toNat]
  simp

/-- Settles O11: the check of the line decides whether it assembles, and `encode_instr` says what the word holds. -/
theorem assemblerFillsTheFields : Obligations.AssemblerFillsTheFields :=
  ⟨fun _ _ _ _ => AsmLine.assemble_command, fun _ _ _ _ => AsmLine.assemble_command_tooWide,
    fun _ _ _ h => ⟨AsmLine.assemble_eq_none (AsmLine.wellFormed_message_tooWide h),
      AsmLine.assemble_eq_none (AsmLine.wellFormed_message_tooWide h)⟩,
    AsmLine.assemble_encryptMessage, AsmLine.assemble_decryptMessage⟩

end Sys2Proof

/-! PROOFS. 30_encoding.md: what a step presents (R32, R34, R38, R90, R100). -/

namespace Sys2Proof.Machine

open Sys2Proof.Claims

/-- Every meaning is one `respond` of a result of the command's width, after a write to CHAIN that changes it for the three
commands of the pipe only (R10, R32). -/
theorem exec_eq_respond (i : Instr) (s : State) : ∃ (c : Byte) (result : BitVec (resultWidth i.mnemonic)),
    exec i s = .next ((s.setChain c).respond result) ∧ (usesChain i.mnemonic = false → c = s.chain) := by
  cases i with
  | cstart | cenc | cdec => exact ⟨_, _, rfl, nofun⟩
  | permIp | permIpinv | permPc1 | permPc2 | permE | permP | sbox0 | sbox1 | ksched | ffunc | fround | encb | decb =>
    exact ⟨s.chain, _, rfl, fun _ => rfl⟩

/-- Zero-extension to a response keeps a result below 2 to the power of its width (R32). -/
theorem zext32_toNat_lt {w : Nat} (result : BitVec w) : (zext32 result).toNat < 2 ^ w :=
  calc (zext32 result).toNat
    _ = result.toNat % 2 ^ 32 := BitVec.toNat_setWidth 32 result
    _ ≤ result.toNat := Nat.mod_le _ _
    _ < 2 ^ w := result.isLt

/-- Settles O12: `exec_eq_respond` with the result zero-extended. -/
theorem everyDecodedCommandCompletes : Obligations.EveryDecodedCommandCompletes := by
  intro i s
  obtain ⟨c, result, hexec, hchain⟩ := exec_eq_respond i s
  exact ⟨c, zext32 result, hexec, zext32_toNat_lt result, hchain⟩

/-- R34's ranges are the opcodes that select no mnemonic: a check of the 256 opcodes. -/
theorem reservedOp_eq_isNone : ∀ op : BitVec 8, reservedOp op = (Mnemonic.ofOpcode op).isNone := by
  decide +kernel

theorem reservedOp_eq_true_iff {op : BitVec 8} : reservedOp op = true ↔ Mnemonic.ofOpcode op = none := by
  rw [reservedOp_eq_isNone, Option.isNone_iff_eq_none]

theorem exists_decode_of_not_reservedOp {w : Cmd} (h : reservedOp (cmdOp w) = false) : ∃ i, decode w = .ok i := by
  rw [reservedOp_eq_isNone, Option.isNone_eq_false_iff, Option.isSome_iff_exists] at h
  obtain ⟨m, hop⟩ := h
  exact ⟨_, decode_of_ofOpcode hop⟩

/-- The step that issues a reserved opcode (R90), by the state's list of inputs. -/
theorem step_of_issued_reserved {s : State} {w : Cmd} {rest : List PortInput} (hop : reservedOp (cmdOp w) = true)
    (hready : s.cmdReady = true) (hin : s.inputs = PortInput.present w :: rest) :
    step s = .fault (.illegalCommand ⟨s.chain, true, some .illegal, rest⟩) := by
  have hport : s.portInput = PortInput.present w := State.portInput_of_inputs hin
  rw [step_of_command (congrArg PortInput.rst hport) hready (congrArg PortInput.cmd hport),
    runCommand_of_reserved (reservedOp_eq_true_iff.1 hop), State.takeInput_of_inputs hin, ← hready]
  rfl

/-- Settles O2: the ranges are the opcodes without a mnemonic, and the step that issues one is `step_of_issued_reserved`. -/
theorem reservedOpcodesRaiseIllegalCommand : Obligations.ReservedOpcodesRaiseIllegalCommand := by
  refine ⟨by decide +kernel, fun w => exists_decode_of_not_reservedOp, fun s w rest hop hready hin =>
    ⟨decode_of_reserved (reservedOp_eq_true_iff.1 hop), step_of_issued_reserved hop hready hin⟩,
    fun s hready w hw rest hin => ⟨_, step_of_issued_reserved ?_ hready hin⟩⟩
  have hends : [0x000000000000#48, 0xFFFFFFFFFFFF#48].all (fun w => reservedOp (cmdOp w)) = true := by decide
  exact List.all_eq_true.1 hends w hw

theorem advance_of_next {s t : State} (h : step s = .next t) : advance s = t := by
  rw [advance, h]

theorem advance_of_fault {s : State} {f : Fault} (h : step s = .fault f) : advance s = f.resume := by
  rw [advance, h]

theorem State.issues_of_rst {s : State} (h : s.portInput.rst = true) : s.issues = none := if_pos h

theorem State.issues_of_notReady {s : State} (h : s.cmdReady = false) : s.issues = none := by
  simp [State.issues, h]

theorem State.issues_of_ready {s : State} (h : s.portInput.rst = false) (hready : s.cmdReady = true) :
    s.issues = s.portInput.cmd := by
  simp [State.issues, h, hready]

/-- What the datapath goes on from after a step: a reset edge; a step that issues nothing and only becomes or stays ready; a
command that completes; or the response of IllegalCommand. -/
theorem advance_cases (s : State) :
    (s.issues = none ∧ s.portInput.rst = true ∧ advance s = ⟨IV, false, none, s.inputs.tail⟩) ∨
    (s.issues = none ∧ s.portInput.rst = false ∧ advance s = ⟨s.chain, true, none, s.inputs.tail⟩) ∨
    (∃ w c r, s.issues = some w ∧ reservedOp (cmdOp w) = false ∧
      advance s = ⟨c, true, some ⟨false, r⟩, s.inputs.tail⟩) ∨
    (∃ w, s.issues = some w ∧ reservedOp (cmdOp w) = true ∧
      advance s = ⟨s.chain, true, some .illegal, s.inputs.tail⟩) := by
  obtain ⟨hrst, hstep⟩ | ⟨hrst, hready, hstep⟩ | ⟨hrst, hready, hcmd, hstep⟩ | ⟨w, i, hrst, hready, hcmd, hdec, hstep⟩ |
    ⟨w, hrst, hready, hcmd, hop, hstep⟩ := step_cases s
  · exact .inl ⟨State.issues_of_rst hrst, hrst, advance_of_next hstep⟩
  · exact .inr (.inl ⟨State.issues_of_notReady hready, hrst, advance_of_next hstep⟩)
  · refine .inr (.inl ⟨(State.issues_of_ready hrst hready).trans hcmd, hrst, ?_⟩)
    rw [advance_of_next hstep, ← hready]
    rfl
  · obtain ⟨m, hop, -⟩ := decode_ok_iff.1 hdec
    obtain ⟨c, r, hexec, -⟩ := exec_shape i s.takeInput
    refine .inr (.inr (.inl ⟨w, c, r, (State.issues_of_ready hrst hready).trans hcmd, ?_, ?_⟩))
    · rw [reservedOp_eq_isNone, hop, Option.isNone_some]
    · rw [advance_of_next (hstep.trans hexec), ← hready]
      rfl
  · refine .inr (.inr (.inr ⟨w, (State.issues_of_ready hrst hready).trans hcmd, reservedOp_eq_true_iff.2 hop, ?_⟩))
    rw [advance_of_fault hstep, ← hready]
    rfl

/-- A step establishes the invariant, whatever the state before it: it leaves `cmd_ready` = 0 only at a reset edge, and `err` = 1
only with `resp` = 0 (R90, R100). -/
theorem advance_inv (s : State) : (advance s).Inv := by
  obtain ⟨-, -, h⟩ | ⟨-, -, h⟩ | ⟨w, c, r, -, -, h⟩ | ⟨w, -, -, h⟩ := advance_cases s <;> rw [h]
  · exact ⟨fun _ => ⟨rfl, rfl⟩, nofun⟩
  · exact ⟨nofun, nofun⟩
  · exact ⟨nofun, fun _ hr herr => by cases hr; cases herr⟩
  · exact ⟨nofun, fun _ hr _ => by cases hr; rfl⟩

/-- Settles O17: the state after a step, next or fault, is `advance`'s. -/
theorem stepKeepsInvariant : Obligations.StepKeepsInvariant :=
  fun s _ => ⟨fun _ h => advance_of_next h ▸ advance_inv s, fun _ h => advance_of_fault h ▸ advance_inv s⟩

theorem advance_response_isSome_iff (s : State) : (advance s).response.isSome = true ↔ s.issues.isSome = true := by
  obtain ⟨hissues, -, h⟩ | ⟨hissues, -, h⟩ | ⟨w, c, r, hissues, -, h⟩ | ⟨w, hissues, -, h⟩ := advance_cases s <;>
    simp [hissues, h]

theorem advance_chain_of_notIssued {s : State} (hissues : s.issues = none) (hrst : s.portInput.rst = false) :
    (advance s).chain = s.chain := by
  obtain ⟨-, hrst', -⟩ | ⟨-, -, h⟩ | ⟨w, c, r, hissues', -⟩ | ⟨w, hissues', -⟩ := advance_cases s
  · cases hrst.symm.trans hrst'
  · rw [h]
  · cases hissues.symm.trans hissues'
  · cases hissues.symm.trans hissues'

/-- A ready datapath that is presented nothing clears the response only (R38, R107). -/
theorem step_of_ready_quiet {s : State} (hready : s.cmdReady = true) (hport : s.portInput = PortInput.quiet) :
    step s = .next ⟨s.chain, true, none, s.inputs.tail⟩ := by
  rw [step_of_quiet (congrArg PortInput.rst hport) hready (congrArg PortInput.cmd hport), ← hready]
  rfl

/-- Settles O18: by `advance_cases`; nothing presented is the quiet input, given or for want of another. -/
theorem responseExactlyWhenIssued : Obligations.ResponseExactlyWhenIssued := by
  refine ⟨fun s => ⟨advance_response_isSome_iff s, advance_chain_of_notIssued⟩, fun s rest hready hin => ?_,
    fun s hready hin => ?_⟩
  · rw [step_of_ready_quiet hready (State.portInput_of_inputs hin), hin, List.tail_cons]
  · rw [step_of_ready_quiet hready (by rw [State.portInput, hin, List.headD_nil]), hin, List.tail_nil]

/-- A command presented to a ready datapath gets one response, with `err` = 1 exactly for a reserved opcode, and the datapath is
ready after it with no other input taken (R38, R95). -/
theorem serve_present_cases (w : Cmd) {s : State} (hready : s.cmdReady = true) : ∃ c r,
    serve (PortInput.present w) s = ⟨c, true, some r, s.inputs⟩ ∧ r.err = reservedOp (cmdOp w) := by
  have hissues : (s.drive (PortInput.present w)).issues = some w := State.issues_of_ready rfl hready
  obtain ⟨h, -⟩ | ⟨h, -⟩ | ⟨v, c, r, h, hop, hserve⟩ | ⟨v, h, hop, hserve⟩ := advance_cases (s.drive (PortInput.present w))
  · cases hissues.symm.trans h
  · cases hissues.symm.trans h
  · cases hissues.symm.trans h
    exact ⟨c, ⟨false, r⟩, hserve, hop.symm⟩
  · cases hissues.symm.trans h
    exact ⟨s.chain, .illegal, hserve, hop.symm⟩

/-- Settles O19: by induction over the program, each command by `serve_present_cases`. -/
theorem oneResponsePerCommand : Obligations.OneResponsePerCommand := by
  intro ws
  induction ws with
  | nil => exact fun s hready => ⟨rfl, hready, rfl⟩
  | cons w ws ih =>
    intro s hready
    obtain ⟨c, r, hserve, herr⟩ := serve_present_cases w hready
    obtain ⟨herrs, hready', hinputs⟩ := ih ⟨c, true, some r, s.inputs⟩ rfl
    rw [runProgram_cons, hserve]
    exact ⟨by simp [herr, herrs], hready', hinputs⟩

end Sys2Proof.Machine

/-! PROOFS. 30_encoding.md: bits that a command does not read (R31, R35). -/

namespace Sys2Proof.Machine

open Sys2Proof.Claims

/-- A mask that covers the window discards nothing that `permute` reads (R40). -/
theorem permute_and {W N w : Nat} (T : PermVector W N) (v mask : BitVec w) (h : ∀ k, k < W → mask.getLsbD k = true) :
    permute T (v &&& mask) = permute T v :=
  permute_congr T _ _ fun k hk => by rw [BitVec.getLsbD_and, h k hk, Bool.and_true]

theorem lowHalf_and (d : Byte) : lowHalf (d &&& 0x0F#8) = lowHalf d := BitVec.extractLsb'_and.trans BitVec.and_allOnes

theorem subkeyOf_and (a : KeyField) : subkeyOf (a &&& 0x00FF#16) = subkeyOf a :=
  BitVec.extractLsb'_and.trans BitVec.and_allOnes

theorem byte_and (d : Byte) : d &&& 0xFF#8 = d := BitVec.and_allOnes

/-- A key is masked to ten bits before anything else (R63). -/
theorem kSched_setWidth {w : Nat} (key : BitVec w) : kSched (key.setWidth 10) = kSched key := by
  simp only [kSched, BitVec.setWidth_eq]

/-- The schedule is a function of the low ten bits of its key (R63). -/
theorem kSched_congr {w w' : Nat} {k : BitVec w} {k' : BitVec w'} (h : k.setWidth 10 = k'.setWidth 10) :
    kSched k = kSched k' :=
  calc kSched k
    _ = kSched (k.setWidth 10) := (kSched_setWidth k).symm
    _ = kSched (k'.setWidth 10) := congrArg kSched h
    _ = kSched k' := kSched_setWidth k'

theorem kSched_and (a : KeyField) : kSched (a &&& 0x03FF#16) = kSched a :=
  kSched_congr (BitVec.setWidth_and.trans BitVec.and_allOnes)

theorem encB_and (cfg : Config) (d : Byte) (a : KeyField) : encB cfg d (a &&& 0x03FF#16) = encB cfg d a := by
  rw [encB, kSched_and, ← encB]

theorem decB_and (cfg : Config) (d : Byte) (a : KeyField) : decB cfg d (a &&& 0x03FF#16) = decB cfg d a := by
  rw [decB, kSched_and, ← decB]

/-- CENC answers the byte xor CHAIN enciphered under `k1` then `k2`, which CHAIN becomes (R81). -/
theorem exec_cenc (d : Byte) (a b : KeyField) (s : State) : exec (.cenc d a b) s =
    .next ((s.setChain (encB config (encB config (d ^^^ s.chain) a) b)).respond
      (encB config (encB config (d ^^^ s.chain) a) b)) := rfl

theorem respond_congr (s : State) {w : Nat} {x y : BitVec w} (h : x = y) :
    (.next (s.respond x) : Result) = .next (s.respond y) := h ▸ rfl

/-- What each command's meaning reads of its fields is within the bits of R33's column "fields read" (R31). -/
theorem exec_readMask (m : Mnemonic) (d : Byte) (a b : KeyField) (s : State) :
    exec (m.instr (d &&& cmdD (readMask m)) (a &&& cmdA (readMask m)) (b &&& cmdB (readMask m))) s =
      exec (m.instr d a b) s := by
  cases m with
  | permIp => exact respond_congr s (congrArg (permute IP) (byte_and d))
  | permIpinv => exact respond_congr s (congrArg (permute IPINV) (byte_and d))
  | permPc1 => exact respond_congr s (permute_and PC1 a 0x03FF#16 (by decide))
  | permPc2 => exact respond_congr s (permute_and PC2 a 0x03FF#16 (by decide))
  | permE => exact respond_congr s (permute_and E d 0x0F#8 (by decide))
  | permP => exact respond_congr s (permute_and P d 0x0F#8 (by decide))
  | sbox0 => exact respond_congr s (congrArg Machine.sbox0 (lowHalf_and d))
  | sbox1 => exact respond_congr s (congrArg (Machine.sbox1 config) (lowHalf_and d))
  | ksched => exact respond_congr s (congrArg RoundKeySchedule.pack (kSched_and a))
  | ffunc => exact respond_congr s (congrArg₂ (roundF config) (lowHalf_and d) (subkeyOf_and a))
  | fround =>
    change execFround (d &&& 0xFF#8) (a &&& 0x00FF#16) s = execFround d a s
    rw [execFround, execFround, byte_and, subkeyOf_and]
  | encb => exact respond_congr s ((encB_and config _ a).trans (congrArg (encB config · a) (byte_and d)))
  | decb => exact respond_congr s ((decB_and config _ a).trans (congrArg (decB config · a) (byte_and d)))
  | cstart => rfl
  | cenc =>
    change exec (.cenc (d &&& 0xFF#8) (a &&& 0x03FF#16) (b &&& 0x03FF#16)) s = exec (.cenc d a b) s
    rw [exec_cenc, exec_cenc, byte_and, encB_and, encB_and]
  | cdec =>
    change exec (.cdec (d &&& 0xFF#8) (a &&& 0x03FF#16) (b &&& 0x03FF#16)) s = exec (.cdec d a b) s
    rw [exec_cdec, exec_cdec, byte_and, decB_and, decB_and]

/-- Every command reads the whole of `op` (R33). -/
theorem cmdOp_readMask (m : Mnemonic) : cmdOp (readMask m) = BitVec.allOnes 8 := by
  cases m <;> rfl

theorem exec_fields_and_readMask (m : Mnemonic) (w : Cmd) (s : State) :
    exec (m.instr (cmdD (w &&& readMask m)) (cmdA (w &&& readMask m)) (cmdB (w &&& readMask m))) s =
      exec (m.instr (cmdD w) (cmdA w) (cmdB w)) s := by
  rw [cmdD_and, cmdA_and, cmdB_and, exec_readMask]

/-- Words that agree on the bits that a command reads mean the same (R31). -/
theorem exec_eq_of_readMask {w w' : Cmd} {i : Instr} (hdec : decode w = .ok i)
    (h : w &&& readMask i.mnemonic = w' &&& readMask i.mnemonic) : ∃ j, decode w' = .ok j ∧ ∀ s, exec j s = exec i s := by
  obtain ⟨m, hop, rfl⟩ := decode_ok_iff.1 hdec
  rw [Mnemonic.mnemonic_instr] at h
  have hop' : cmdOp w = cmdOp w' := by simpa only [cmdOp_and, cmdOp_readMask, BitVec.and_allOnes] using congrArg cmdOp h
  refine ⟨_, decode_of_ofOpcode (hop' ▸ hop), fun s => ?_⟩
  rw [← exec_fields_and_readMask m w', ← h, exec_fields_and_readMask]

/-- R35's command: block 0x00 under a key field whose low ten bits are 0x200. -/
theorem exec_encb_of_key_0x200 {a : KeyField} (h : cut a 0 10 = 0x200#10) (s : State) :
    exec (.encb 0x00 a) s = .next (answered s s.chain 0x00000061#32) := by
  have hkey : kSched a = kSched 0x200#10 := kSched_congr ((BitVec.setWidth_eq_extractLsb' (by decide)).trans h)
  have henc : encB config 0x00 a = encB config 0x00 0x200#10 := by rw [encB, hkey, ← encB]
  have hval : encB config 0x00 0x200#10 = 0x61#8 := by decide +kernel
  exact respond_congr s (henc.trans hval)

/-- Settles O9: `exec_eq_of_readMask`, and `exec_encb_of_key_0x200` for the three words of R35. -/
theorem ignoredBitsHaveNoEffect : Obligations.IgnoredBitsHaveNoEffect := by
  refine ⟨fun w w' i s hdec h => ?_, fun s x hx => ?_⟩
  · obtain ⟨j, hdec', hexec⟩ := exec_eq_of_readMask hdec h
    obtain ⟨c, r, ht, -⟩ := exec_shape i s
    exact ⟨j, _, hdec', ht, (hexec s).trans ht⟩
  · have hword : decode x.1 = .ok (.encb 0x00 x.2) ∧ cut x.2 0 10 = 0x200#10 := by
      simp only [List.mem_cons, List.not_mem_nil, or_false] at hx
      obtain rfl | rfl | rfl := hx
      · exact ⟨rfl, rfl⟩
      · exact ⟨rfl, rfl⟩
      · exact ⟨rfl, rfl⟩
    obtain ⟨hdec, hkey⟩ := hword
    exact ⟨hdec, hkey, exec_encb_of_key_0x200 hkey s⟩

end Sys2Proof.Machine

/-! PROOFS. 40_bit_permutation_unit.md: the generic function (R40) and the properties of its fixed uses (R47). -/

namespace Sys2Proof.Machine

open Sys2Proof.Claims

variable {W N M w : Nat}

/-- The numbering of R40 from the least significant end: `y[N-i] = v[W - T[i]]`. -/
theorem getLsbD_permute (T : PermVector W N) (v : BitVec w) {i : Nat} (h : i - 1 < N) (hi : 1 ≤ i) :
    (permute T v).getLsbD (N - i) = v.getLsbD (W - T.entries[i - 1]) := by
  have hbit := getMsbD_permute T v (i - 1) h
  rw [BitVec.getMsbD_eq_getLsbD, decide_eq_true h, Bool.true_and] at hbit
  rwa [show N - i = N - 1 - (i - 1) by omega]

/-- A well-formed vector is its entries. -/
theorem PermVector.eq_of_toList_eq {T U : PermVector W N} (h : T.entries.toList = U.entries.toList) : T = U := by
  obtain ⟨t, ht⟩ := T
  obtain ⟨u, hu⟩ := U
  obtain rfl : t = u := Vector.toList_inj.1 h
  rfl

/-- Settles O23: `getLsbD_permute`, and the worked example on the vector with those entries, which is IP. -/
theorem permuteSelectsNumberedBits : Obligations.PermuteSelectsNumberedBits := by
  refine ⟨fun W N w T v => ⟨fun i h hi => getLsbD_permute T v h hi, permute_setWidth_of_le T v le_rfl⟩, fun T hT => ?_⟩
  obtain rfl : T = IP := PermVector.eq_of_toList_eq hT
  decide

/-- The low bits of a value that cover the window are all that `permute` reads (R40). -/
theorem permute_cut (T : PermVector W N) (v : BitVec w) {n : Nat} (hn : W ≤ n) : permute T (cut v 0 n) = permute T v :=
  permute_congr T _ _ fun k hk => by simp [cut, show k < n by omega]

/-- Vectors over windows of two widths that number the same input bits, from the least significant, select the same. -/
theorem permute_eq_of_sameBits (T : PermVector W N) (U : PermVector M N) (v : BitVec w)
    (h : ∀ k : Fin N, W - T.entries[k] = M - U.entries[k]) : permute T v = permute U v := by
  apply BitVec.eq_of_getMsbD_eq
  intro k hk
  have hsame : W - T.entries[k] = M - U.entries[k] := h ⟨k, hk⟩
  rw [getMsbD_permute _ _ _ hk, getMsbD_permute _ _ _ hk, hsame]

/-- A vector undoes another if each of its entries finds the place where the other has put that bit. -/
theorem permute_leftInverse (T : PermVector N W) (U : PermVector W N)
    (h : ∀ k : Fin W, U.entries[T.entries[k] - 1]? = some (k.val + 1)) :
    Function.LeftInverse (fun y : BitVec N => permute T y) (fun v : BitVec W => permute U v) := by
  intro v
  apply BitVec.eq_of_getMsbD_eq
  intro k hk
  obtain ⟨hin, hentry⟩ := Vector.getElem?_eq_some_iff.1 (h ⟨k, hk⟩)
  obtain ⟨hpos, -⟩ := entry_inRange T k hk
  have hplace : W - (k + 1) = W - 1 - k := by omega
  calc (permute T (permute U v)).getMsbD k
    _ = (permute U v).getLsbD (N - T.entries[k]) := getMsbD_permute T _ k hk
    _ = v.getLsbD (W - U.entries[T.entries[k] - 1]) := getLsbD_permute U v hin hpos
    _ = v.getLsbD (W - (k + 1)) := congrArg (fun j => v.getLsbD (W - j)) hentry
    _ = v.getMsbD k := by rw [hplace, BitVec.getMsbD_eq_getLsbD, decide_eq_true hk, Bool.true_and]

/-- Two vectors that undo each other are bijections. -/
theorem permute_bijective (T : PermVector W N) (U : PermVector N W)
    (hleft : Function.LeftInverse (fun y : BitVec N => permute U y) (fun v : BitVec W => permute T v))
    (hright : Function.LeftInverse (fun v : BitVec W => permute T v) (fun y : BitVec N => permute U y)) :
    Function.Bijective (fun v : BitVec W => permute T v) :=
  Function.bijective_iff_has_inverse.2 ⟨_, hleft, hright⟩

theorem IPINV_leftInverse_IP : Function.LeftInverse (fun b : Byte => permute IPINV b) (fun b : Byte => permute IP b) :=
  permute_leftInverse IPINV IP (by decide)

theorem IP_leftInverse_IPINV : Function.LeftInverse (fun b : Byte => permute IP b) (fun b : Byte => permute IPINV b) :=
  permute_leftInverse IP IPINV (by decide)

/-- The vector that undoes PC1. -/
def PC1Inv : PermVector 10 10 := ⟨#v[7, 3, 1, 5, 2, 10, 4, 9, 8, 6], by decide⟩

theorem PC1_bijective : Function.Bijective (fun v : BitVec 10 => permute PC1 v) :=
  permute_bijective PC1 PC1Inv (permute_leftInverse PC1Inv PC1 (by decide)) (permute_leftInverse PC1 PC1Inv (by decide))

/-- The vector that undoes P. -/
def PInv : PermVector 4 4 := ⟨#v[4, 1, 3, 2], by decide⟩

theorem P_bijective : Function.Bijective (fun v : Nibble => permute P v) :=
  permute_bijective P PInv (permute_leftInverse PInv P (by decide)) (permute_leftInverse P PInv (by decide))

/-- The selection that undoes E: `y[6] ‖ y[5] ‖ y[4] ‖ y[7]` (R47). -/
def EInv : PermVector 8 4 := ⟨#v[2, 3, 4, 1], by decide⟩

theorem EInv_leftInverse_E : Function.LeftInverse (fun y : Byte => permute EInv y) (fun x : Nibble => permute E x) :=
  permute_leftInverse EInv E (by decide)

/-- PC2 as a permutation of the eight low bits, the only ones it reads. -/
def PC2Low : PermVector 8 8 := ⟨#v[4, 1, 5, 2, 6, 3, 8, 7], by decide⟩

/-- The vector that undoes `PC2Low`. -/
def PC2LowInv : PermVector 8 8 := ⟨#v[2, 4, 6, 1, 3, 5, 8, 7], by decide⟩

theorem permute_PC2_eq_PC2Low (x : BitVec w) : permute PC2 x = permute PC2Low (cut x 0 8) :=
  (permute_eq_of_sameBits PC2 PC2Low x (by decide)).trans (permute_cut PC2Low x le_rfl).symm

theorem permute_PC2Low_eq_iff (x y : Byte) : permute PC2Low x = y ↔ x = permute PC2LowInv y := by
  have hleft := permute_leftInverse PC2LowInv PC2Low (by decide)
  have hright := permute_leftInverse PC2Low PC2LowInv (by decide)
  exact ⟨fun h => h ▸ (hleft x).symm, fun h => h ▸ hright y⟩

/-- PC2 is onto, and the inputs of an output are those that share their eight low bits (R47). -/
theorem exists_PC2_fibre (y : Byte) : ∃ x : BitVec 10, ∀ x' : BitVec 10, permute PC2 x' = y ↔ cut x' 0 8 = cut x 0 8 := by
  have hcut : cut ((permute PC2LowInv y).setWidth 10) 0 8 = permute PC2LowInv y := by
    rw [cut, ← BitVec.setWidth_eq_extractLsb' (by decide), BitVec.setWidth_setWidth_of_le _ (by decide), BitVec.setWidth_eq]
  refine ⟨(permute PC2LowInv y).setWidth 10, fun x' => ?_⟩
  rw [permute_PC2_eq_PC2Low, permute_PC2Low_eq_iff, hcut]

theorem permute_xor (T : PermVector W N) (u v : BitVec w) : permute T (u ^^^ v) = permute T u ^^^ permute T v := by
  apply BitVec.eq_of_getMsbD_eq
  intro k hk
  rw [getMsbD_permute_xor T u v k hk, BitVec.getMsbD_xor]

theorem permute_zero (T : PermVector W N) : permute T (0#w) = 0#N := by
  apply BitVec.eq_of_getMsbD_eq
  intro k hk
  rw [getMsbD_permute T _ k hk, BitVec.getLsbD_zero, BitVec.getMsbD_zero]

end Sys2Proof.Machine

/-! PROOFS. 40_bit_permutation_unit.md: the wirings (R41 to R46), the commands (R48 to R53) and the properties (R47). -/

namespace Sys2Proof.Machine

open Sys2Proof.Claims

variable {W N n w : Nat}

/-- The bits of a value, the most significant first: the order in which a wiring is written. -/
def bitList (y : BitVec n) : List Bool := List.ofFn fun k : Fin n => y.getMsbD k

theorem bitList_injective : Function.Injective (bitList (n := n)) := by
  intro x y h
  apply BitVec.eq_of_getMsbD_eq
  intro k hk
  exact congrFun (List.ofFn_injective h) ⟨k, hk⟩

/-- A vector lists the input bits that it numbers (R40). -/
theorem bitList_permute (T : PermVector W N) (v : BitVec w) :
    bitList (permute T v) = T.entries.toList.map fun j => v.getLsbD (W - j) := by
  apply List.ext_getElem
  · simp [bitList]
  · intro k hk hk'
    have hN : k < N := by simpa [bitList] using hk
    simp [bitList, getMsbD_permute T v k hN]

theorem bitList_append (x : BitVec n) (y : BitVec w) : bitList (x ++ y) = bitList x ++ bitList y := by
  rw [bitList, List.ofFn_add]
  congr 2
  · funext k
    simp [BitVec.getMsbD_append]
  · funext k
    simp [BitVec.getMsbD_append]

theorem bitList_bit (v : BitVec w) (j : Nat) : bitList (bit v j) = [v.getLsbD j] := by
  simp [bitList, bit, BitVec.getMsbD_eq_getLsbD]

/-- A wiring is what a vector selects if it lists the input bits that the vector numbers. -/
theorem permute_eq_of_bitList {T : PermVector W N} {v : BitVec w} {y : BitVec N}
    (h : bitList y = T.entries.toList.map fun j => v.getLsbD (W - j)) : permute T v = y :=
  bitList_injective ((bitList_permute T v).trans h.symm)

theorem permute_IP_eq_ipWired (x : Byte) : permute IP x = ipWired x :=
  permute_eq_of_bitList (by simp only [ipWired, bitList_append, bitList_bit]; rfl)

theorem permute_IPINV_eq_ipinvWired (x : Byte) : permute IPINV x = ipinvWired x :=
  permute_eq_of_bitList (by simp only [ipinvWired, bitList_append, bitList_bit]; rfl)

theorem permute_PC1_eq_pc1Wired (x : BitVec w) : permute PC1 x = pc1Wired x :=
  permute_eq_of_bitList (by simp only [pc1Wired, bitList_append, bitList_bit]; rfl)

theorem permute_PC2_eq_pc2Wired (x : BitVec w) : permute PC2 x = pc2Wired x :=
  permute_eq_of_bitList (by simp only [pc2Wired, bitList_append, bitList_bit]; rfl)

theorem permute_E_eq_eWired (x : BitVec w) : permute E x = eWired x :=
  permute_eq_of_bitList (by simp only [eWired, bitList_append, bitList_bit]; rfl)

theorem permute_P_eq_pWired (x : BitVec w) : permute P x = pWired x :=
  permute_eq_of_bitList (by simp only [pWired, bitList_append, bitList_bit]; rfl)

/-- `EInv` is the rule's `y[6] ‖ y[5] ‖ y[4] ‖ y[7]` (R47). -/
theorem permute_EInv_eq_bits (y : Byte) : permute EInv y = bit y 6 ++ bit y 5 ++ bit y 4 ++ bit y 7 :=
  permute_eq_of_bitList (by simp only [bitList_append, bitList_bit]; rfl)

/-- Settles O27: each vector is undone by another on its entries, and `permute` acts bit by bit. -/
theorem permutationUnitProperties : Obligations.PermutationUnitProperties := by
  refine ⟨⟨fun b => ⟨IPINV_leftInverse_IP b, IP_leftInverse_IPINV b⟩, by decide⟩, ?_,
    fun W N w T u v => ⟨permute_xor T u v, permute_zero T⟩, fun W N T i => entry_inRange T i i.isLt⟩
  exact ⟨permute_bijective IP IPINV IPINV_leftInverse_IP IP_leftInverse_IPINV,
    permute_bijective IPINV IP IP_leftInverse_IPINV IPINV_leftInverse_IP, PC1_bijective, P_bijective,
    fun x => (EInv_leftInverse_E x).symm.trans (permute_EInv_eq_bits _), exists_PC2_fibre⟩

/-- What one command of the unit does: its word decodes to it whatever the fields it ignores, and it answers the wiring of its
vector and changes nothing else (R48 to R53). -/
theorem permCommand_answers {m : Mnemonic} {b a : KeyField} {d : Byte} {s : State} {y wired : BitVec N}
    (hexec : exec (m.instr d a b) s = .next (s.respond y)) (hwired : y = wired) :
    decode (cmdWord m.opcode b a d) = .ok (m.instr d a b) ∧
      exec (m.instr d a b) s = .next (answered s s.chain (wired.setWidth 32)) ∧ y = wired := by
  refine ⟨decode_cmdWord b a d m, ?_, hwired⟩
  rw [hexec, hwired, State.respond_eq_answered]
  rfl

/-- Settles O24: `permCommand_answers` with the wirings of R41 and R42. -/
theorem permIpAndIpinvAnswer : Obligations.PermIpAndIpinvAnswer := fun _ _ d _ =>
  ⟨permCommand_answers (m := .permIp) rfl (permute_IP_eq_ipWired d),
    permCommand_answers (m := .permIpinv) rfl (permute_IPINV_eq_ipinvWired d)⟩

/-- Settles O25: `permCommand_answers` with the wirings of R43 and R44, on the window that they read. -/
theorem permPc1AndPc2Answer : Obligations.PermPc1AndPc2Answer := fun _ a _ _ =>
  ⟨permCommand_answers (m := .permPc1) rfl ((permute_cut PC1 a le_rfl).symm.trans (permute_PC1_eq_pc1Wired _)),
    permCommand_answers (m := .permPc2) rfl ((permute_cut PC2 a le_rfl).symm.trans (permute_PC2_eq_pc2Wired _))⟩

/-- Settles O26: `permCommand_answers` with the wirings of R45 and R46, on the window that they read. -/
theorem permEAndPAnswer : Obligations.PermEAndPAnswer := fun _ _ d _ =>
  ⟨permCommand_answers (m := .permE) rfl ((permute_cut E d le_rfl).symm.trans (permute_E_eq_eWired _)),
    permCommand_answers (m := .permP) rfl ((permute_cut P d le_rfl).symm.trans (permute_P_eq_pWired _))⟩

end Sys2Proof.Machine

/-! PROOFS. 41_s_box_substitution.md: the indexing rule (R54), the flattened boxes (R55, R56) and the commands (R57, R58). -/

namespace Sys2Proof.Machine

open Sys2Proof.Claims

/-- Two single bits side by side, the first the more significant, as a number. -/
theorem toNat_bit_append_bit {w : Nat} (v : BitVec w) (i j : Nat) :
    (v.extractLsb' i 1 ++ v.extractLsb' j 1).toNat = 2 * (v.getLsbD i).toNat + (v.getLsbD j).toNat := by
  have hbit (k : Nat) : (v.getLsbD k).toNat = (v.extractLsb' k 1).toNat := by
    rw [BitVec.extractLsb'_toNat, BitVec.getLsbD, Nat.toNat_testBit, Nat.shiftRight_eq_div_pow, pow_one]
  rw [hbit, hbit, BitVec.toNat_append, ← Nat.shiftLeft_add_eq_or_of_lt (BitVec.isLt _), Nat.shiftLeft_eq, pow_one, mul_comm]

theorem sboxRow_toNat (h : Nibble) : (sboxRow h).toNat = 2 * (h.getLsbD 3).toNat + (h.getLsbD 0).toNat :=
  toNat_bit_append_bit h 3 0

theorem sboxCol_toNat (h : Nibble) : (sboxCol h).toNat = 2 * (h.getLsbD 2).toNat + (h.getLsbD 1).toNat :=
  toNat_bit_append_bit h 2 1

/-- A vector at an index within it is its list there, whatever the default. -/
theorem getElem_eq_toList_getD {α : Type} {n : Nat} (v : Vector α n) {i : Nat} (hi : i < n) (default : α) :
    v[i] = v.toList.getD i default := by
  rw [List.getD_eq_getElem _ _ (by simpa using hi), Vector.getElem_toList]

/-- Settles O28: the row's and the column's number by `sboxRow_toNat` and `sboxCol_toNat`, both within the table. -/
theorem sboxRowIsOuterColumnIsInner : Obligations.SboxRowIsOuterColumnIsInner := by
  intro S h
  rw [← sboxRow_toNat, ← sboxCol_toNat, sboxLookup, getElem_eq_toList_getD _ _ 0,
    getElem_eq_toList_getD S (sboxRow h).isLt #v[0, 0, 0, 0]]

/-- A box flattened by its input: the sixteen look-ups in order (R55, R56). -/
def sboxFlat (S : SBox) : List (BitVec 2) := List.ofFn fun n : Fin 16 => sboxLookup S (BitVec.ofFin n)

theorem sboxLookup_eq_sboxFlat (S : SBox) (h : Nibble) : sboxLookup S h = (sboxFlat S).getD h.toNat 0 := by
  have hlen : h.toNat < (sboxFlat S).length := by simpa only [sboxFlat, List.length_ofFn] using h.isLt
  exact (List.getElem_ofFn hlen).symm.trans (List.getD_eq_getElem _ _ hlen).symm

theorem sboxFlat_S0 : sboxFlat S0 = s0Flat := rfl

/-- The open entry is the last of the flattened box, whatever its value (R56, D12). -/
theorem sboxFlat_S1 (cfg : Config) : sboxFlat (S1 cfg) = s1Flat cfg.s1_33 := rfl

theorem sbox0_eq_s0Flat (h : Nibble) : sbox0 h = s0Flat.getD h.toNat 0 :=
  sboxFlat_S0 ▸ sboxLookup_eq_sboxFlat S0 h

theorem sbox1_eq_s1Flat (cfg : Config) (h : Nibble) : sbox1 cfg h = (s1Flat cfg.s1_33).getD h.toNat 0 :=
  sboxFlat_S1 cfg ▸ sboxLookup_eq_sboxFlat (S1 cfg) h

theorem lowHalf_toNat (d : Byte) : (lowHalf d).toNat = d.toNat % 16 := by
  simp [lowHalf]

/-- What one command of the unit does: its word decodes to it whatever the fields it ignores, and it answers the entry of its
flattened box at `d[3:0]` and changes nothing else (R57, R58). -/
theorem sboxCommand_answers {m : Mnemonic} {b a : KeyField} {d : Byte} {s : State} {y : BitVec 2} {flat : List (BitVec 2)}
    (hexec : exec (m.instr d a b) s = .next (s.respond y)) (hentry : y = flat.getD (lowHalf d).toNat 0) :
    decode (cmdWord m.opcode b a d) = .ok (m.instr d a b) ∧
      exec (m.instr d a b) s = .next (answered s s.chain ((flat.getD (d.toNat % 16) 0).setWidth 32)) := by
  rw [lowHalf_toNat] at hentry
  rw [hexec, hentry, State.respond_eq_answered]
  exact ⟨decode_cmdWord b a d m, rfl⟩

/-- Settles O29: `sboxCommand_answers` with the flattened boxes of R55 and R56. -/
theorem sboxCommandsAnswerTheTables : Obligations.SboxCommandsAnswerTheTables :=
  ⟨sbox1_eq_s1Flat, fun _ _ d _ =>
    ⟨sboxCommand_answers (m := .sbox0) rfl (sbox0_eq_s0Flat (lowHalf d)),
      sboxCommand_answers (m := .sbox1) rfl (sbox1_eq_s1Flat config (lowHalf d))⟩⟩

end Sys2Proof.Machine

/-! PROOFS. 42_key_schedule_generator.md: the masking rule (R63), the rotations (R61, R64), linearity (R65, R66) and KSCHED (R62). -/

namespace Sys2Proof.Machine

open Sys2Proof.Claims

variable {w v : Nat}

theorem encB_setWidth (cfg : Config) (blk : Byte) (key : BitVec w) : encB cfg blk (key.setWidth 10) = encB cfg blk key := by
  rw [encB, kSched_setWidth, ← encB]

theorem decB_setWidth (cfg : Config) (blk : Byte) (key : BitVec w) : decB cfg blk (key.setWidth 10) = decB cfg blk key := by
  rw [decB, kSched_setWidth, ← decB]

/-- Settles O31: the schedule masks its key, and the cipher uses a key through its schedule only. -/
theorem keyBitsAboveNineAreDiscarded : Obligations.KeyBitsAboveNineAreDiscarded := fun cfg _ key b =>
  ⟨(kSched_setWidth key).symm, (encB_setWidth cfg b key).symm, (decB_setWidth cfg b key).symm⟩

/-- Rotation to the left, from the most significant bit: place `k` gets the bit of place `n + k`, around the five (R8). -/
theorem getMsbD_rotl5 (x : BitVec 5) (n : Nat) {k : Nat} (hk : k < 5) : (rotl5 x n).getMsbD k = x.getMsbD ((n + k) % 5) := by
  rw [rotl5, BitVec.getMsbD_rotateLeft, decide_eq_true hk, Bool.true_and]

theorem rotl5_rotl5 (x : BitVec 5) (m n : Nat) : rotl5 (rotl5 x m) n = rotl5 x (m + n) := by
  apply BitVec.eq_of_getMsbD_eq
  intro k hk
  have hplace : (m + (n + k) % 5) % 5 = (m + n + k) % 5 := by omega
  rw [getMsbD_rotl5 _ _ hk, getMsbD_rotl5 _ _ (Nat.mod_lt _ (by decide)), getMsbD_rotl5 _ _ hk, hplace]

theorem rotl5_mod (x : BitVec 5) (n : Nat) : rotl5 x (n % 5) = rotl5 x n := BitVec.rotateLeft_mod_eq_rotateLeft

theorem rotl5_zero (x : BitVec 5) : rotl5 x 0 = x := by
  apply BitVec.eq_of_getMsbD_eq
  intro k hk
  rw [getMsbD_rotl5 _ _ hk, Nat.zero_add, Nat.mod_eq_of_lt hk]

theorem rotl5_xor (x y : BitVec 5) (n : Nat) : rotl5 (x ^^^ y) n = rotl5 x n ^^^ rotl5 y n := by
  apply BitVec.eq_of_getMsbD_eq
  intro k hk
  simp only [BitVec.getMsbD_xor, getMsbD_rotl5 _ _ hk]

theorem KeyHalves.rotate_rotate (h : KeyHalves) (m n : Nat) : (h.rotate m).rotate n = h.rotate (m + n) := by
  simp only [rotate, rotl5_rotl5]

theorem KeyHalves.rotate_mod (h : KeyHalves) (n : Nat) : h.rotate (n % 5) = h.rotate n := by
  simp only [rotate, rotl5_mod]

theorem KeyHalves.rotate_zero (h : KeyHalves) : h.rotate 0 = h := by
  simp only [rotate, rotl5_zero]

/-- The more significant half of the permuted key, `t[9:5]` (R60). -/
theorem KeyHalves.ofKey_C (key : BitVec 10) : (ofKey key).C = cut (permute PC1 key) 5 5 := rfl

/-- The less significant half of the permuted key, `t[4:0]` (R60). -/
theorem KeyHalves.ofKey_D (key : BitVec 10) : (ofKey key).D = cut (permute PC1 key) 0 5 := rfl

theorem KeyHalves.ofKey_append (key : BitVec 10) : (ofKey key).C ++ (ofKey key).D = permute PC1 key := by
  have happend : cut (permute PC1 key) 5 5 ++ cut (permute PC1 key) 0 5 = cut (permute PC1 key) 0 10 :=
    BitVec.extractLsb'_append_extractLsb'_eq_extractLsb' rfl
  rw [ofKey_C, ofKey_D, happend, cut, BitVec.extractLsb'_eq_self]

/-- The subkey that the original halves of a key give when both are rotated by `n` places (R64). -/
def subkeyRotated (key : BitVec w) (n : Nat) : Byte := ((KeyHalves.ofKey (key.setWidth 10)).rotate n).subkey

theorem subkeyRotated_eq (key : BitVec w) (n : Nat) : subkeyRotated key n =
    permute PC2 (rotl5 (cut (permute PC1 (key.setWidth 10)) 5 5) n ++ rotl5 (cut (permute PC1 (key.setWidth 10)) 0 5) n) :=
  rfl

theorem subkeyRotated_mod (key : BitVec w) (n : Nat) : subkeyRotated key (n % 5) = subkeyRotated key n :=
  congrArg KeyHalves.subkey (KeyHalves.rotate_mod _ n)

theorem subkeyRotated_zero (key : BitVec w) : subkeyRotated key 0 = permute PC2 (permute PC1 (key.setWidth 10)) := by
  rw [subkeyRotated, KeyHalves.rotate_zero, KeyHalves.subkey, KeyHalves.ofKey_append]

/-- The rotations of R61 add up to 1, 3, 5 and 7, and five places are none (R64). -/
theorem kSched_eq_subkeyRotated (key : BitVec w) :
    kSched key = #v[subkeyRotated key 1, subkeyRotated key 3, subkeyRotated key 0, subkeyRotated key 2] :=
  calc kSched key
    _ = #v[subkeyRotated key 1, subkeyRotated key 3, subkeyRotated key 5, subkeyRotated key 7] := by
      simp only [kSched, KeyHalves.rotate_rotate]
      rfl
    _ = #v[subkeyRotated key 1, subkeyRotated key 3, subkeyRotated key (5 % 5), subkeyRotated key (7 % 5)] := by
      rw [subkeyRotated_mod, subkeyRotated_mod]

/-- Settles O32: `kSched_eq_subkeyRotated`, whose third subkey is that of no rotation. -/
theorem cumulativeRotationIsOneThreeZeroTwo : Obligations.CumulativeRotationIsOneThreeZeroTwo := by
  intro key
  have hrotated (n : Nat) : subkeyRotated key n =
      permute PC2 ((cut (permute PC1 key) 5 5).rotateLeft n ++ (cut (permute PC1 key) 0 5).rotateLeft n) := by
    rw [subkeyRotated_eq, BitVec.setWidth_eq, rotl5, rotl5]
  refine ⟨?_, ?_⟩
  · simp only [kSched_eq_subkeyRotated, hrotated]
  · calc (kSched key)[2]
      _ = subkeyRotated key 0 := by rw [kSched_eq_subkeyRotated]; rfl
      _ = permute PC2 (permute PC1 key) := by rw [subkeyRotated_zero, BitVec.setWidth_eq]

/-- PC1, the rotations and PC2 only move bits (R65). -/
theorem subkeyRotated_xor (j k : BitVec w) (n : Nat) :
    subkeyRotated (j ^^^ k) n = subkeyRotated j n ^^^ subkeyRotated k n := by
  simp only [subkeyRotated_eq, cut, BitVec.setWidth_xor, permute_xor, BitVec.extractLsb'_xor, rotl5_xor,
    ← BitVec.xor_append]

theorem kSched_xor_getElem (j k : BitVec w) {r : Nat} (hr : r < 4) :
    (kSched (j ^^^ k))[r] = (kSched j)[r] ^^^ (kSched k)[r] := by
  simp only [kSched_eq_subkeyRotated]
  match r with
  | 0 => exact subkeyRotated_xor j k 1
  | 1 => exact subkeyRotated_xor j k 3
  | 2 => exact subkeyRotated_xor j k 0
  | 3 => exact subkeyRotated_xor j k 2

/-- What distributes over XOR answers 0 to 0. -/
theorem map_zero_of_map_xor {f : BitVec w → BitVec v} (hf : ∀ x y, f (x ^^^ y) = f x ^^^ f y) : f 0#w = 0#v :=
  calc f 0#w
    _ = f (0#w ^^^ 0#w) := congrArg f BitVec.xor_self.symm
    _ = f 0#w ^^^ f 0#w := hf _ _
    _ = 0#v := BitVec.xor_self

/-- Settles O33: `kSched_xor_getElem`, from which the subkeys of key 0 follow. -/
theorem keyScheduleIsLinear : Obligations.KeyScheduleIsLinear := fun j k r =>
  ⟨kSched_xor_getElem j k r.isLt,
    map_zero_of_map_xor (f := fun key => (kSched key)[r]) fun x y => kSched_xor_getElem x y r.isLt⟩

theorem kSched_pack_xor (j k : BitVec w) : (kSched (j ^^^ k)).pack = (kSched j).pack ^^^ (kSched k).pack :=
  calc (kSched (j ^^^ k)).pack
    _ = ((kSched j)[0] ^^^ (kSched k)[0]) ++ ((kSched j)[1] ^^^ (kSched k)[1]) ++ ((kSched j)[2] ^^^ (kSched k)[2]) ++
          ((kSched j)[3] ^^^ (kSched k)[3]) := by
      simp only [RoundKeySchedule.pack, kSched_xor_getElem]
    _ = (kSched j).pack ^^^ (kSched k).pack := by
      rw [← BitVec.xor_append, ← BitVec.xor_append, ← BitVec.xor_append]
      rfl

/-- The key with bit number `i + 1` set, counted from the most significant, and no other (R66). -/
def singleBitKey (i : Nat) : BitVec 10 := BitVec.twoPow 10 (9 - i)

/-- The exclusive or of those of the first `n` rows whose key bit is set: row `i` belongs to key bit number `i + 1` (R66). -/
def xorOfRows (key : BitVec w) (rows : Nat → BitVec v) (n : Nat) : BitVec v :=
  (List.range n).foldl (fun acc i => xorIf (key.getLsbD (9 - i)) acc (rows i)) 0#v

theorem scheduleByRows_eq_xorOfRows (key : BitVec w) :
    scheduleByRows key = xorOfRows key (fun i => singleBitSchedules.getD i 0) 10 := rfl

theorem xorOfRows_zero (key : BitVec w) (rows : Nat → BitVec v) : xorOfRows key rows 0 = 0#v := rfl

theorem xorOfRows_succ (key : BitVec w) (rows : Nat → BitVec v) (n : Nat) :
    xorOfRows key rows (n + 1) = xorIf (key.getLsbD (9 - n)) (xorOfRows key rows n) (rows n) := by
  rw [xorOfRows, List.range_succ, List.foldl_concat, xorOfRows]

theorem getLsbD_xorIf (c : Bool) (x y : BitVec v) (p : Nat) :
    (xorIf c x y).getLsbD p = (x.getLsbD p ^^ (c && y.getLsbD p)) := by
  cases c <;> simp [xorIf]

theorem map_xorIf {u : Nat} {f : BitVec u → BitVec v} (hf : ∀ x y, f (x ^^^ y) = f x ^^^ f y) (c : Bool) (x y : BitVec u) :
    f (xorIf c x y) = xorIf c (f x) (f y) := by
  cases c with
  | false => rfl
  | true => exact hf x y

/-- What distributes over XOR is determined by its values at the rows (R66). -/
theorem map_xorOfRows {u : Nat} {f : BitVec u → BitVec v} (hf : ∀ x y, f (x ^^^ y) = f x ^^^ f y) {key : BitVec w}
    {rows : Nat → BitVec u} {images : Nat → BitVec v} (n : Nat) (himages : ∀ i < n, f (rows i) = images i) :
    f (xorOfRows key rows n) = xorOfRows key images n := by
  induction n with
  | zero => exact map_zero_of_map_xor hf
  | succ n ih =>
    rw [xorOfRows_succ, map_xorIf hf, ih fun i hi => himages i (hi.trans n.lt_succ_self), himages n n.lt_succ_self,
      ← xorOfRows_succ]

/-- Of the first `n` single-bit keys those that a key has make its `n` most significant bits. -/
theorem getLsbD_xorOfRows_singleBitKey (key : BitVec w) {p : Nat} (hp : p < 10) {n : Nat} (hn : n ≤ 10) :
    (xorOfRows key singleBitKey n).getLsbD p = (key.getLsbD p && decide (9 - p < n)) := by
  induction n with
  | zero => simp [xorOfRows_zero]
  | succ n ih =>
    rw [xorOfRows_succ, getLsbD_xorIf, ih (by omega), singleBitKey, BitVec.getLsbD_twoPow]
    obtain rfl | hne := eq_or_ne p (9 - n)
    · simp [show 9 - (9 - n) = n by omega, show 9 - n < 10 by omega]
    · simp [hne.symm, show 9 - p < n + 1 ↔ 9 - p < n by omega]

/-- A key is the exclusive or of its single-bit keys (R66). -/
theorem xorOfRows_singleBitKey (key : BitVec w) : xorOfRows key singleBitKey 10 = key.setWidth 10 := by
  apply BitVec.eq_of_getLsbD_eq
  intro p hp
  rw [getLsbD_xorOfRows_singleBitKey key hp le_rfl, BitVec.getLsbD_setWidth, Bool.and_comm]
  simp [hp, show 9 - p < 10 by omega]

/-- The ten rows of R66. -/
theorem kSched_singleBitKey_pack : ∀ i < 10, (kSched (singleBitKey i)).pack = singleBitSchedules.getD i 0 := by
  decide

/-- The table of R66 determines the schedule of every key (R65, R66). -/
theorem kSched_pack_eq_scheduleByRows (key : BitVec w) : (kSched key).pack = scheduleByRows key :=
  calc (kSched key).pack
    _ = (kSched (xorOfRows key singleBitKey 10)).pack := by rw [xorOfRows_singleBitKey, kSched_setWidth]
    _ = scheduleByRows key := map_xorOfRows (f := fun k => (kSched k).pack) kSched_pack_xor 10 kSched_singleBitKey_pack

/-- Settles O30: the packed schedule fills the response, and it is that of R66's rows by `kSched_pack_eq_scheduleByRows`. -/
theorem kschedAnswersTheSubkeys : Obligations.KschedAnswersTheSubkeys := by
  intro b a d s
  obtain ⟨hdecode, hexec, hresp⟩ :=
    permCommand_answers (m := .ksched) (b := b) (d := d) (s := s) rfl (kSched_pack_eq_scheduleByRows a)
  rw [BitVec.setWidth_eq] at hexec
  exact ⟨hdecode, hexec, hresp⟩

end Sys2Proof.Machine

/-! PROOFS. 43_feistel_round_engine.md: the round function (R67), the round (R68), their commands (R69, R70) and the exchange of
halves (R71). -/

namespace Sys2Proof.Machine

open Sys2Proof.Claims

theorem highHalf_toNat (d : Byte) : (highHalf d).toNat = d.toNat / 16 := by
  have hlt : d.toNat / 16 < 16 := Nat.div_lt_of_lt_mul d.isLt
  rw [highHalf, BitVec.extractLsb_toNat, Nat.shiftRight_eq_div_pow]
  exact Nat.mod_eq_of_lt hlt

@[simp] theorem highHalf_append (hi lo : Nibble) : highHalf (hi ++ lo) = hi := BitVec.extractLsb'_append_eq_left

@[simp] theorem lowHalf_append (hi lo : Nibble) : lowHalf (hi ++ lo) = lo := BitVec.extractLsb'_append_eq_right

/-- The round function after the key is mixed in: substitute and permute (R67). -/
def substitutePermute (cfg : Config) (T : Byte) : Nibble := permute P (sbox0 (highHalf T) ++ sbox1 cfg (lowHalf T))

/-- F reads its operands only through `E(r) xor k` (R71). -/
theorem roundF_eq_substitutePermute (cfg : Config) (r : Nibble) (k : Byte) :
    roundF cfg r k = substitutePermute cfg (permute E r ^^^ k) := rfl

theorem substitutePermute_eq_tables (cfg : Config) (T : Byte) : substitutePermute cfg T =
    pWired (s0Flat.getD (T.toNat / 16) 0 ++ (s1Flat cfg.s1_33).getD (T.toNat % 16) 0) := by
  rw [substitutePermute, permute_P_eq_pWired, sbox0_eq_s0Flat, sbox1_eq_s1Flat, highHalf_toNat, lowHalf_toNat]

theorem roundF_eq_fByTables (cfg : Config) (r : Nibble) (k : Byte) : roundF cfg r k = fByTables cfg.s1_33 r k := by
  rw [roundF_eq_substitutePermute, permute_E_eq_eWired, substitutePermute_eq_tables, fByTables]

/-- Settles O35: `roundF_eq_fByTables`, and the answer on the parts of the fields that FFUNC reads. -/
theorem ffuncAnswersTheRoundFunction : Obligations.FfuncAnswersTheRoundFunction := by
  refine ⟨roundF_eq_fByTables, fun b a d s => ?_⟩
  obtain ⟨hdecode, hexec, -⟩ :=
    permCommand_answers (m := .ffunc) (b := b) (s := s) rfl (roundF_eq_fByTables config (lowHalf d) (subkeyOf a))
  exact ⟨hdecode, hexec⟩

/-- The two halves of a byte as it stands, left half first (R70). -/
def Halves.ofByte (x : Byte) : Halves := ⟨highHalf x, lowHalf x⟩

/-- Two halves side by side, the left the more significant (R70). -/
def Halves.toByte (h : Halves) : Byte := h.L ++ h.R

/-- The exchange of the two halves (R71). -/
def Halves.swap (h : Halves) : Halves := ⟨h.R, h.L⟩

@[simp] theorem Halves.ofByte_toByte (h : Halves) : ofByte h.toByte = h := by
  simp [ofByte, toByte]

theorem swapHalves_eq_toByte (x : Byte) : swapHalves x = (Halves.ofByte x).swap.toByte := rfl

@[simp] theorem swapHalves_toByte (h : Halves) : swapHalves h.toByte = h.swap.toByte := by
  rw [swapHalves_eq_toByte, Halves.ofByte_toByte]

/-- FROUND answers the round of its byte's halves (R70). -/
theorem exec_fround (d : Byte) (a : KeyField) (s : State) :
    exec (.fround d a) s = .next (s.respond (feistelRound config (.ofByte d) (subkeyOf a)).toByte) := rfl

theorem feistelRound_toByte (cfg : Config) (d k : Byte) : (feistelRound cfg (.ofByte d) k).toByte =
    cut d 0 4 ++ (cut d 4 4 ^^^ roundF cfg (cut d 0 4) k) := rfl

/-- Settles O36: `exec_fround`, with the round's byte written out. -/
theorem froundAnswersTheRound : Obligations.FroundAnswersTheRound := by
  intro b a d s
  obtain ⟨hdecode, hexec, -⟩ := permCommand_answers (m := .fround) (b := b) (exec_fround d a s)
    (feistelRound_toByte config d (subkeyOf a))
  exact ⟨hdecode, hexec⟩

/-- The right half passes through the round, so the second one adds the same value of F to the left half again (R71). -/
theorem feistelRound_swap_feistelRound (cfg : Config) (h : Halves) (k : Byte) :
    feistelRound cfg (feistelRound cfg h k).swap k = h.swap := by
  have hcancel : h.L ^^^ roundF cfg h.R k ^^^ roundF cfg h.R k = h.L := by
    rw [BitVec.xor_assoc, BitVec.xor_self, BitVec.xor_zero]
  exact congrArg (Halves.mk h.R) hcancel

/-- FROUND of the exchanged answer answers the exchanged operand (R71). -/
theorem exec_fround_swapHalves (d : Byte) (a : KeyField) (s : State) :
    exec (.fround (swapHalves (feistelRound config (.ofByte d) (subkeyOf a)).toByte) a) s =
      .next (s.respond (swapHalves d)) := by
  rw [exec_fround, swapHalves_toByte, Halves.ofByte_toByte, feistelRound_swap_feistelRound, swapHalves_eq_toByte]

/-- Settles O37: the round undoes itself by `feistelRound_swap_feistelRound`, and F is a function of `E(r) xor k`. -/
theorem roundIsItsOwnInverseUpToSwap : Obligations.RoundIsItsOwnInverseUpToSwap :=
  ⟨fun cfg k l r => feistelRound_swap_feistelRound cfg ⟨l, r⟩ k,
    fun cfg _ _ _ _ hmixed => by rw [roundF_eq_substitutePermute, hmixed, ← roundF_eq_substitutePermute],
    fun d a s => ⟨_, exec_fround d a s, exec_fround_swapHalves d a s⟩⟩

end Sys2Proof.Machine

/-! PROOFS. 44_block_cipher.md: the rounds written out (R73 to R75), the two commands (R76, R77), the round trip (R78) and the
keys by their schedules (R77, R79). -/

namespace Sys2Proof.Machine

open Sys2Proof.Claims

variable {w : Nat}

/-- The four rounds of encryption, between the outer two permutations (R73). -/
theorem encB_eq_fourRounds (cfg : Config) (b : Byte) (key : BitVec w) : encB cfg b key =
    permute IPINV (fourRounds cfg (permute IP b) (kSched key)[0] (kSched key)[1] (kSched key)[2] (kSched key)[3]) := rfl

/-- The four rounds of decryption: the subkeys in reverse (R74). -/
theorem decB_eq_fourRounds (cfg : Config) (b : Byte) (key : BitVec w) : decB cfg b key =
    permute IPINV (fourRounds cfg (permute IP b) (kSched key)[3] (kSched key)[2] (kSched key)[1] (kSched key)[0]) := rfl

/-- The commands' keys are the ten low bits of a field (R63). -/
theorem kSched_cut (a : KeyField) : kSched (cut a 0 10) = kSched a :=
  kSched_congr ((BitVec.setWidth_eq _).trans (BitVec.setWidth_eq_extractLsb' (by decide)).symm)

/-- Settles O38: the rounds written out by `encB_eq_fourRounds`, under the ten bits of the key field that are read. -/
theorem encbAnswersTheEncryptedBlock : Obligations.EncbAnswersTheEncryptedBlock := by
  intro b a d s SK c
  have hc : encB config d a = c := by rw [encB_eq_fourRounds, ← kSched_cut a]
  obtain ⟨hdecode, hexec, -⟩ := permCommand_answers (m := .encb) (b := b) (s := s) rfl hc
  exact ⟨hdecode, hc, hexec⟩

/-- The rounds cancel in pairs from the middle outward, whatever the round function (R78). -/
theorem fourRoundsOf_reversed (F : Nibble → Byte → Nibble) (x k1 k2 k3 k4 : Byte) :
    fourRoundsOf F (fourRoundsOf F x k1 k2 k3 k4) k4 k3 k2 k1 = x := by
  have hhigh (hi lo : Nibble) : cut (hi ++ lo : Byte) 4 4 = hi := highHalf_append hi lo
  have hlow (hi lo : Nibble) : cut (hi ++ lo : Byte) 0 4 = lo := lowHalf_append hi lo
  have hhalves : cut x 4 4 ++ cut x 0 4 = x := BitVec.extractLsb'_append_extractLsb' (w := 4) (len := 4)
  simp only [fourRoundsOf, hhigh, hlow, BitVec.xor_assoc, BitVec.xor_self, BitVec.xor_zero, hhalves]

/-- Of the tables nothing is used but that the outer two permutations are inverse (R78). -/
theorem fourRoundsOf_roundTrip (F : Nibble → Byte → Nibble) (ip ipinv : Byte → Byte) (k1 k2 k3 k4 b : Byte)
    (hinner : ∀ x, ip (ipinv x) = x) (houter : ipinv (ip b) = b) :
    ipinv (fourRoundsOf F (ip (ipinv (fourRoundsOf F (ip b) k1 k2 k3 k4))) k4 k3 k2 k1) = b := by
  rw [hinner, fourRoundsOf_reversed, houter]

theorem decB_encB (cfg : Config) (b : Byte) (key : BitVec w) : decB cfg (encB cfg b key) key = b :=
  fourRoundsOf_roundTrip (roundF cfg) (permute IP) (permute IPINV) _ _ _ _ b IP_leftInverse_IPINV (IPINV_leftInverse_IP b)

theorem encB_decB (cfg : Config) (b : Byte) (key : BitVec w) : encB cfg (decB cfg b key) key = b :=
  fourRoundsOf_roundTrip (roundF cfg) (permute IP) (permute IPINV) _ _ _ _ b IP_leftInverse_IPINV (IPINV_leftInverse_IP b)

theorem encB_bijective (cfg : Config) (key : BitVec w) : Function.Bijective (fun b : Byte => encB cfg b key) :=
  Function.bijective_iff_has_inverse.2 ⟨fun b => decB cfg b key, fun b => decB_encB cfg b key, fun b => encB_decB cfg b key⟩

/-- Settles O40: both orders are `fourRoundsOf_roundTrip`, with the model's round function and its outer two permutations. -/
theorem blockCipherRoundTrip : Obligations.BlockCipherRoundTrip :=
  ⟨fun cfg _ key => ⟨fun b => ⟨decB_encB cfg b key, encB_decB cfg b key⟩, encB_bijective cfg key⟩, fourRoundsOf_roundTrip⟩

/-- Equal outputs of PC2 have equal inputs but for the two bits that PC2 drops (R47). -/
theorem permute_PC2_eq_iff {x y : BitVec 10} : permute PC2 x = permute PC2 y ↔ cut x 0 8 = cut y 0 8 := by
  rw [permute_PC2_eq_PC2Low, permute_PC2_eq_PC2Low y, permute_PC2Low_eq_iff,
    ← (permute_PC2Low_eq_iff (cut y 0 8) _).1 rfl]

/-- The window of PC2 leaves out the two high bits of `C`. -/
theorem cut_append_halves (c d : BitVec 5) : cut (c ++ d) 0 8 = cut c 0 3 ++ d :=
  calc cut (c ++ d) 0 8
    _ = cut (c ++ d) 5 3 ++ cut (c ++ d) 0 5 :=
      (BitVec.extractLsb'_append_extractLsb'_eq_extractLsb' (len₂ := 3) (len₁ := 5) rfl).symm
    _ = cut c 0 3 ++ d := congrArg₂ (· ++ ·) (BitVec.extractLsb'_append_eq_of_le le_rfl) BitVec.extractLsb'_append_eq_right

/-- A subkey shows the three low bits of `C` and the whole of `D` (R60, R61). -/
theorem KeyHalves.subkey_eq_iff {g h : KeyHalves} : g.subkey = h.subkey ↔ cut g.C 0 3 = cut h.C 0 3 ∧ g.D = h.D := by
  rw [subkey, subkey, permute_PC2_eq_iff, cut_append_halves, cut_append_halves]
  refine ⟨fun heq => ⟨?_, ?_⟩, fun ⟨hC, hD⟩ => by rw [hC, hD]⟩
  · simpa only [BitVec.extractLsb'_append_eq_left] using congrArg (BitVec.extractLsb' 5 3) heq
  · simpa only [BitVec.extractLsb'_append_eq_right] using congrArg (BitVec.extractLsb' 0 5) heq

theorem subkeyRotated_eq_iff {j k : BitVec 10} {m n : Nat} : subkeyRotated j m = subkeyRotated k n ↔
    cut (rotl5 (KeyHalves.ofKey j).C m) 0 3 = cut (rotl5 (KeyHalves.ofKey k).C n) 0 3 ∧
      rotl5 (KeyHalves.ofKey j).D m = rotl5 (KeyHalves.ofKey k).D n := by
  rw [subkeyRotated, subkeyRotated, BitVec.setWidth_eq, BitVec.setWidth_eq, KeyHalves.subkey_eq_iff]
  rfl

theorem KeyHalves.ofKey_injective : Function.Injective KeyHalves.ofKey := by
  intro j k h
  apply PC1_bijective.injective
  calc permute PC1 j
    _ = (ofKey j).C ++ (ofKey j).D := (ofKey_append j).symm
    _ = (ofKey k).C ++ (ofKey k).D := by rw [h]
    _ = permute PC1 k := ofKey_append k

/-- A half from what the subkeys show of `C`: its low bits without rotation, and its high bits with a rotation by three. -/
theorem half_eq_append : ∀ x : BitVec 5, x = cut (cut (rotl5 x 3) 0 3) 1 2 ++ cut (rotl5 x 0) 0 3 := by
  decide

/-- Settles O34: the second and the third subkey show every bit of `C` and of `D`, and these are PC1 of the key. -/
theorem keyScheduleIsInjective : Obligations.KeyScheduleIsInjective := by
  intro j k h
  rw [kSched_eq_subkeyRotated, kSched_eq_subkeyRotated] at h
  have h3 : subkeyRotated j 3 = subkeyRotated k 3 := congrArg (·[1]) h
  have h0 : subkeyRotated j 0 = subkeyRotated k 0 := congrArg (·[2]) h
  obtain ⟨hC3, -⟩ := subkeyRotated_eq_iff.1 h3
  obtain ⟨hC0, hD⟩ := subkeyRotated_eq_iff.1 h0
  have hC : (KeyHalves.ofKey j).C = (KeyHalves.ofKey k).C := by
    rw [half_eq_append (KeyHalves.ofKey j).C, hC3, hC0, ← half_eq_append]
  rw [rotl5_zero, rotl5_zero] at hD
  exact KeyHalves.ofKey_injective (congrArg₂ KeyHalves.mk hC hD)

/-- The halves that every rotation leaves as they are. -/
def uniformHalves : List (BitVec 5) := [0#5, 31#5]

/-- The four rotations show the same of `C` in both directions (R64) exactly if its bits are all equal. -/
theorem shownBits_palindromic_iff : ∀ x : BitVec 5,
    cut (rotl5 x 1) 0 3 = cut (rotl5 x 2) 0 3 ∧ cut (rotl5 x 3) 0 3 = cut (rotl5 x 0) 0 3 ↔ x ∈ uniformHalves := by
  decide

/-- The four rotations leave `D` the same in both directions exactly if its bits are all equal (R64). -/
theorem rotl5_palindromic_iff : ∀ x : BitVec 5,
    rotl5 x 1 = rotl5 x 2 ∧ rotl5 x 3 = rotl5 x 0 ↔ x ∈ uniformHalves := by
  decide

/-- The four keys of R77 are those whose halves are uniform. -/
theorem mem_palindromicKeys_iff {k : BitVec 10} : k ∈ palindromicKeys ↔
    (KeyHalves.ofKey k).C ∈ uniformHalves ∧ (KeyHalves.ofKey k).D ∈ uniformHalves := by
  have hkeys : ∀ c ∈ uniformHalves, ∀ d ∈ uniformHalves, permute PC1Inv (c ++ d) ∈ palindromicKeys := by decide
  have hhalves : ∀ k ∈ palindromicKeys,
      (KeyHalves.ofKey k).C ∈ uniformHalves ∧ (KeyHalves.ofKey k).D ∈ uniformHalves := by decide
  refine ⟨hhalves k, fun ⟨hC, hD⟩ => ?_⟩
  have hk : permute PC1Inv ((KeyHalves.ofKey k).C ++ (KeyHalves.ofKey k).D) = k := by
    rw [KeyHalves.ofKey_append]
    exact permute_leftInverse PC1Inv PC1 (by decide) k
  exact hk ▸ hkeys _ hC _ hD

/-- A schedule reads the same in both directions exactly under the four keys of the rule (R77). -/
theorem kSched_palindromic_iff {k : BitVec 10} :
    ((kSched k)[0] = (kSched k)[3] ∧ (kSched k)[1] = (kSched k)[2]) ↔ k ∈ palindromicKeys :=
  calc ((kSched k)[0] = (kSched k)[3] ∧ (kSched k)[1] = (kSched k)[2])
    _ ↔ subkeyRotated k 1 = subkeyRotated k 2 ∧ subkeyRotated k 3 = subkeyRotated k 0 := by
      rw [kSched_eq_subkeyRotated]
      rfl
    _ ↔ k ∈ palindromicKeys := by
      rw [mem_palindromicKeys_iff, ← shownBits_palindromic_iff, ← rotl5_palindromic_iff, subkeyRotated_eq_iff,
        subkeyRotated_eq_iff, and_and_and_comm]

/-- Under such a key the subkeys in reverse are the subkeys in order (R77). -/
theorem decB_eq_encB_of_palindromic (cfg : Config) (b : Byte) {a : KeyField} (h : cut a 0 10 ∈ palindromicKeys) :
    decB cfg b a = encB cfg b a := by
  obtain ⟨houter, hinner⟩ := kSched_palindromic_iff.2 h
  rw [decB_eq_fourRounds, encB_eq_fourRounds, ← kSched_cut a, houter, hinner]

/-- Settles O39: `decB_eq_fourRounds`, `kSched_palindromic_iff`, and DECB as ENCB's inverse by `decB_encB`. -/
theorem decbAnswersTheDecryptedBlock : Obligations.DecbAnswersTheDecryptedBlock := by
  refine ⟨?_, fun k => kSched_palindromic_iff, fun d a s hkey => ⟨?_, ?_⟩⟩
  · intro b a d s SK p
    have hp : decB config d a = p := by rw [decB_eq_fourRounds, ← kSched_cut a]
    obtain ⟨hdecode, hexec, -⟩ := permCommand_answers (m := .decb) (b := b) (s := s) rfl hp
    exact ⟨hdecode, hp, hexec⟩
  · exact respond_congr s (decB_eq_encB_of_palindromic config d hkey)
  · rw [← decB_eq_encB_of_palindromic config _ hkey, decB_encB]

end Sys2Proof.Machine

/-! PROOFS. 45_chained_double_pipe.md: one byte in the pipe (R81, R82) and the three commands (R80 to R82). -/

namespace Sys2Proof.Machine

open Sys2Proof.Claims

variable {w1 w2 : Nat}

theorem encB_cut (cfg : Config) (blk : Byte) (a : KeyField) : encB cfg blk (cut a 0 10) = encB cfg blk a := by
  rw [encB, kSched_cut, ← encB]

theorem decB_cut (cfg : Config) (blk : Byte) (a : KeyField) : decB cfg blk (cut a 0 10) = decB cfg blk a := by
  rw [decB, kSched_cut, ← decB]

/-- A command of the pipe writes CHAIN and its result: `setChain` and `respond` are `answered` together. -/
theorem State.setChain_respond_eq_answered (s : State) (c result : Byte) :
    (s.setChain c).respond result = answered s c (result.setWidth 32) := rfl

/-- Settles O41: `exec_cstart`, from the state given and from the one it leaves. -/
theorem cstartLoadsTheInitialisationValue : Obligations.CstartLoadsTheInitialisationValue :=
  fun b a d s => ⟨decode_cmdWord b a d .cstart, exec_cstart s, exec_cstart _⟩

/-- Two passes under one key with a palindromic schedule cancel: the second is the decryption of the first (R77, R81). -/
theorem encB_encB_of_palindromic (cfg : Config) (x : Byte) {a b : KeyField} (hkeys : cut a 0 10 = cut b 0 10)
    (hpal : cut a 0 10 ∈ palindromicKeys) : encB cfg (encB cfg x a) b = x :=
  calc encB cfg (encB cfg x a) b
    _ = encB cfg (encB cfg x a) a := by rw [← encB_cut, ← hkeys, encB_cut]
    _ = decB cfg (encB cfg x a) a := (decB_eq_encB_of_palindromic cfg _ hpal).symm
    _ = x := decB_encB cfg x a

/-- Settles O42: `exec_cenc` under the ten bits of each key field that are read, and `encB_encB_of_palindromic`. -/
theorem cencAnswersTheChainedCiphertext : Obligations.CencAnswersTheChainedCiphertext := by
  refine ⟨?_, fun b a d s hkeys hpal => ?_⟩
  · intro b a d s c
    have hc : encB config (encB config (d ^^^ s.chain) a) b = c := by rw [← encB_cut config _ a, ← encB_cut]
    refine ⟨decode_cmdWord b a d .cenc, ?_⟩
    rw [exec_cenc, hc, State.setChain_respond_eq_answered]
  · rw [exec_cenc, encB_encB_of_palindromic config _ hkeys hpal, State.setChain_respond_eq_answered]

/-- Settles O43: `exec_cdec` under the ten bits of each key field that are read. -/
theorem cdecAnswersTheChainedPlaintext : Obligations.CdecAnswersTheChainedPlaintext := by
  intro b a d s p
  have hp : decB config (decB config d b) a ^^^ s.chain = p := by rw [← decB_cut config d b, ← decB_cut]
  refine ⟨decode_cmdWord b a d .cdec, ?_⟩
  rw [exec_cdec, hp, State.setChain_respond_eq_answered]

theorem exec_cenc_eq_pipeEncrypt (d : Byte) (a b : KeyField) (s : State) : exec (.cenc d a b) s =
    .next ((s.setChain (pipeEncrypt config d a b s.chain).chain).respond (pipeEncrypt config d a b s.chain).dout) := rfl

theorem exec_cdec_eq_pipeDecrypt (d : Byte) (a b : KeyField) (s : State) : exec (.cdec d a b) s =
    .next ((s.setChain (pipeDecrypt config d a b s.chain).chain).respond (pipeDecrypt config d a b s.chain).dout) := rfl

/-- Decrypting an encrypted byte at the same CHAIN gives the byte back, and feeds back what the encryption did (R87). -/
theorem pipeDecrypt_pipeEncrypt (cfg : Config) (p : Byte) (k1 : BitVec w1) (k2 : BitVec w2) (chain : Byte) :
    pipeDecrypt cfg (pipeEncrypt cfg p k1 k2 chain).dout k1 k2 chain = ⟨p, (pipeEncrypt cfg p k1 k2 chain).chain⟩ := by
  rw [pipeDecrypt, pipeEncrypt, decB_encB, decB_encB, BitVec.xor_assoc, BitVec.xor_self, BitVec.xor_zero]

/-- Encrypting a decrypted byte at the same CHAIN gives the ciphertext byte back, and feeds it back (R87). -/
theorem pipeEncrypt_pipeDecrypt (cfg : Config) (c : Byte) (k1 : BitVec w1) (k2 : BitVec w2) (chain : Byte) :
    pipeEncrypt cfg (pipeDecrypt cfg c k1 k2 chain).dout k1 k2 chain = ⟨c, (pipeDecrypt cfg c k1 k2 chain).chain⟩ := by
  rw [pipeEncrypt, pipeDecrypt, BitVec.xor_assoc, BitVec.xor_self, BitVec.xor_zero, encB_decB, encB_decB]

end Sys2Proof.Machine

/-! PROOFS. 45_chained_double_pipe.md: whole messages (R84, R85) and what a changed ciphertext byte changes (R87). -/

namespace Sys2Proof.Machine

open Sys2Proof.Claims

variable {w1 w2 : Nat} (cfg : Config) (k1 : BitVec w1) (k2 : BitVec w2)

/-- One turn of the loop of R84 is the encrypting pass of R81. -/
theorem chainEncryptFrom_cons (chain p : Byte) (ps : List Byte) : chainEncryptFrom cfg k1 k2 chain (p :: ps) =
    (pipeEncrypt cfg p k1 k2 chain).dout :: chainEncryptFrom cfg k1 k2 (pipeEncrypt cfg p k1 k2 chain).chain ps := rfl

/-- One turn of the loop of R85 is the decrypting pass of R82. -/
theorem chainDecryptFrom_cons (chain c : Byte) (cs : List Byte) : chainDecryptFrom cfg k1 k2 chain (c :: cs) =
    (pipeDecrypt cfg c k1 k2 chain).dout :: chainDecryptFrom cfg k1 k2 (pipeDecrypt cfg c k1 k2 chain).chain cs := rfl

theorem chainDecryptFrom_chainEncryptFrom (chain : Byte) (ps : List Byte) :
    chainDecryptFrom cfg k1 k2 chain (chainEncryptFrom cfg k1 k2 chain ps) = ps := by
  induction ps generalizing chain with
  | nil => rfl
  | cons p ps ih => rw [chainEncryptFrom_cons, chainDecryptFrom_cons, pipeDecrypt_pipeEncrypt, ih]

theorem chainEncryptFrom_chainDecryptFrom (chain : Byte) (cs : List Byte) :
    chainEncryptFrom cfg k1 k2 chain (chainDecryptFrom cfg k1 k2 chain cs) = cs := by
  induction cs generalizing chain with
  | nil => rfl
  | cons c cs ih => rw [chainDecryptFrom_cons, chainEncryptFrom_cons, pipeEncrypt_pipeDecrypt, ih]

theorem length_chainEncryptFrom (chain : Byte) (ps : List Byte) : (chainEncryptFrom cfg k1 k2 chain ps).length = ps.length := by
  induction ps generalizing chain with
  | nil => rfl
  | cons p ps ih => rw [chainEncryptFrom_cons, List.length_cons, ih, List.length_cons]

/-- A plaintext byte, from its ciphertext byte and the one before it (R85). -/
def decryptedByte (c prev : Byte) : Byte := decB cfg (decB cfg c k2) k1 ^^^ prev

/-- The loop of R85 pairs each ciphertext byte with the one before it, the first with the initial value. -/
theorem chainDecryptFrom_eq_zipWith (chain : Byte) (cs : List Byte) :
    chainDecryptFrom cfg k1 k2 chain cs = List.zipWith (decryptedByte cfg k1 k2) cs (chain :: cs) := by
  induction cs generalizing chain with
  | nil => rfl
  | cons c cs ih => rw [List.zipWith_cons_cons, ← ih]; rfl

theorem length_chainDecryptFrom (chain : Byte) (cs : List Byte) : (chainDecryptFrom cfg k1 k2 chain cs).length = cs.length := by
  rw [chainDecryptFrom_eq_zipWith, List.length_zipWith, List.length_cons, Nat.min_eq_left cs.length.le_succ]

/-- Byte `i` of a message stands at two places of the pairs that R85 decrypts: as its own and as the one before the next. -/
theorem chainDecrypt_set (cs : List Byte) (i : Nat) (x : Byte) : chainDecrypt cfg (cs.set i x) k1 k2 =
    List.zipWith (decryptedByte cfg k1 k2) (cs.set i x) ((IV :: cs).set (i + 1) x) :=
  chainDecryptFrom_eq_zipWith cfg k1 k2 IV (cs.set i x)

/-- A changed ciphertext byte changes no plaintext byte but its own and the next (R87). -/
theorem chainDecrypt_set_getElem?_of_ne (cs : List Byte) {i j : Nat} (x : Byte) (hown : j ≠ i) (hnext : j ≠ i + 1) :
    (chainDecrypt cfg (cs.set i x) k1 k2)[j]? = (chainDecrypt cfg cs k1 k2)[j]? := by
  rw [chainDecrypt_set, chainDecrypt, chainDecryptFrom_eq_zipWith, List.getElem?_zipWith, List.getElem?_zipWith,
    List.getElem?_set_ne hown.symm, List.getElem?_set_ne hnext.symm]

/-- Settles O46: byte by byte through `pipeDecrypt_pipeEncrypt` and `pipeEncrypt_pipeDecrypt`. -/
theorem chainedCipherRoundTrip : Obligations.ChainedCipherRoundTrip := fun cfg _ _ k1 k2 m =>
  ⟨chainDecryptFrom_chainEncryptFrom cfg k1 k2 IV m, chainEncryptFrom_chainDecryptFrom cfg k1 k2 IV m,
    length_chainEncryptFrom cfg k1 k2 IV m, length_chainDecryptFrom cfg k1 k2 IV m,
    fun _ _ x hown hnext => chainDecrypt_set_getElem?_of_ne cfg k1 k2 m x hown hnext⟩

theorem decB_injective (key : BitVec w1) : Function.Injective (fun b : Byte => decB cfg b key) :=
  Function.LeftInverse.injective (g := fun b => encB cfg b key) fun b => encB_decB cfg b key

/-- Both passes of a decryption are injective, so equal plaintext bytes after equal bytes have equal ciphertext bytes. -/
theorem decryptedByte_left_inj {c c' prev : Byte} :
    decryptedByte cfg k1 k2 c prev = decryptedByte cfg k1 k2 c' prev ↔ c = c' := by
  rw [decryptedByte, decryptedByte, BitVec.xor_left_inj]
  exact ((decB_injective cfg k1).comp (decB_injective cfg k2)).eq_iff

/-- What changes of the byte before is xored into the plaintext byte (R85). -/
theorem decryptedByte_prev (c prev prev' : Byte) :
    decryptedByte cfg k1 k2 c prev' = decryptedByte cfg k1 k2 c prev ^^^ (prev' ^^^ prev) := by
  have hcancel : prev ^^^ (prev' ^^^ prev) = prev' := by
    rw [BitVec.xor_comm prev', ← BitVec.xor_assoc, BitVec.xor_self, BitVec.zero_xor]
  rw [decryptedByte, decryptedByte, BitVec.xor_assoc, hcancel]

/-- Settles O47: byte `i` is its own for plaintext byte `i` (`decryptedByte_left_inj`) and the one before for the next
(`decryptedByte_prev`). -/
theorem changedCiphertextByteChangesTwoPlaintextBytes : Obligations.ChangedCiphertextByteChangesTwoPlaintextBytes := by
  intro cfg w1 w2 k1 k2 m i x old hold hne
  have hlt : i < m.length := (List.getElem?_eq_some_iff.1 hold).1
  rw [chainDecrypt_set, chainDecrypt, chainDecryptFrom_eq_zipWith]
  simp only [List.getElem?_zipWith]
  constructor
  · obtain ⟨prev, hprev⟩ : ∃ prev, (IV :: m)[i]? = some prev :=
      ⟨_, List.getElem?_eq_getElem (Nat.lt_succ_of_lt hlt)⟩
    rw [List.getElem?_set_self hlt, List.getElem?_set_ne i.succ_ne_self, hprev, hold]
    exact fun heq => hne ((decryptedByte_left_inj cfg k1 k2).1 (Option.some.inj heq))
  · rw [List.getElem?_set_ne i.lt_succ_self.ne, List.getElem?_set_self (Nat.succ_lt_succ hlt), List.getElem?_cons_succ, hold]
    cases m[i + 1]? with
    | none => rfl
    | some c => exact congrArg some (decryptedByte_prev cfg k1 k2 c old x)

end Sys2Proof.Machine

/-! PROOFS. 45_chained_double_pipe.md: messages run on the machine (R86, R88) and commands between them (R105). -/

namespace Sys2Proof.Machine

open Sys2Proof.Claims

/-- The results of eight bits that responses carry (R37). -/
def resultBytes (responses : List Response) : List Byte := responses.map fun r => r.resp.setWidth 8

/-- The first response of a pseudo-command's run, CSTART's, is discarded (R37). -/
theorem pseudoResult_cons (r : Response) (rs : List Response) : pseudoResult (r :: rs) = resultBytes rs := rfl

theorem resultBytes_cons_ok (y : Byte) (rs : List Response) : resultBytes (Response.ok y :: rs) = y :: resultBytes rs := by
  simp [resultBytes]

@[simp] theorem resultBytes_map_ok (bytes : List Byte) : resultBytes (bytes.map Response.ok) = bytes := by
  simp [resultBytes, Function.comp_def]

/-- A command of the pipe at the head of a program: its response comes first, and the rest runs from what it wrote (R24). -/
theorem runProgram_pipe {i : Instr} {o : PipeOut} {s : State} (hready : s.cmdReady = true)
    (hexec : exec i s = .next ((s.setChain o.chain).respond o.dout)) (ws : List Cmd) : runProgram (encode i :: ws) s =
      (Response.ok o.dout :: (runProgram ws ((s.setChain o.chain).respond o.dout)).1,
        (runProgram ws ((s.setChain o.chain).respond o.dout)).2) := by
  rw [runProgram_cons, serve_command hready (decode_encode i) hexec]
  rfl

/-- A whole message through one direction of the pipe: what the passes put out, and the CHAIN that the last of them leaves. -/
def passMessage (pass : Byte → Byte → PipeOut) : Byte → List Byte → List Byte × Byte
  | chain, [] => ([], chain)
  | chain, x :: xs =>
      ((pass x chain).dout :: (passMessage pass (pass x chain).chain xs).1, (passMessage pass (pass x chain).chain xs).2)

/-- The encrypting passes are the loop of R84, and leave CHAIN at the last byte put out. -/
theorem passMessage_pipeEncrypt (k1 k2 : KeyField) (chain : Byte) (ps : List Byte) :
    passMessage (fun p chain => pipeEncrypt config p k1 k2 chain) chain ps =
      (chainEncryptFrom config k1 k2 chain ps, (chainEncryptFrom config k1 k2 chain ps).getLastD chain) := by
  induction ps generalizing chain with
  | nil => rfl
  | cons p ps ih => rw [passMessage, ih, chainEncryptFrom_cons, List.getLastD_cons]; rfl

/-- The decrypting passes are the loop of R85, and leave CHAIN at the last byte taken in. -/
theorem passMessage_pipeDecrypt (k1 k2 : KeyField) (chain : Byte) (cs : List Byte) :
    passMessage (fun c chain => pipeDecrypt config c k1 k2 chain) chain cs =
      (chainDecryptFrom config k1 k2 chain cs, cs.getLastD chain) := by
  induction cs generalizing chain with
  | nil => rfl
  | cons c cs ih => rw [passMessage, ih, chainDecryptFrom_cons, List.getLastD_cons]; rfl

/-- A command of the pipe for each byte of a message runs its passes, from CHAIN as it is (R86). -/
theorem runProgram_passMessage {cmd : Byte → Instr} {pass : Byte → Byte → PipeOut}
    (hexec : ∀ x s, exec (cmd x) s = .next ((s.setChain (pass x s.chain).chain).respond (pass x s.chain).dout))
    (m : List Byte) {s : State} (hready : s.cmdReady = true) :
    (runProgram ((m.map cmd).map encode) s).1 = (passMessage pass s.chain m).1.map Response.ok ∧
      (runProgram ((m.map cmd).map encode) s).2.chain = (passMessage pass s.chain m).2 := by
  induction m generalizing s with
  | nil => exact ⟨rfl, rfl⟩
  | cons x m ih =>
    obtain ⟨hresponses, hchain⟩ := ih (s := (s.setChain (pass x s.chain).chain).respond (pass x s.chain).dout) hready
    rw [List.map_cons, List.map_cons, runProgram_pipe hready (hexec x s), hresponses, hchain]
    exact ⟨rfl, rfl⟩

/-- A CENC for each byte answers the loop of R84 from CHAIN as it is, and leaves CHAIN at the last ciphertext byte (R86). -/
theorem runProgram_cenc (k1 k2 : KeyField) (m : List Byte) {s : State} (hready : s.cmdReady = true) :
    (runProgram ((m.map fun x => Instr.cenc x k1 k2).map encode) s).1 =
      (chainEncryptFrom config k1 k2 s.chain m).map Response.ok ∧
    (runProgram ((m.map fun x => Instr.cenc x k1 k2).map encode) s).2.chain =
      (chainEncryptFrom config k1 k2 s.chain m).getLastD s.chain := by
  have hrun := runProgram_passMessage (fun x => exec_cenc_eq_pipeEncrypt x k1 k2) m hready
  rwa [passMessage_pipeEncrypt] at hrun

/-- A CDEC for each byte answers the loop of R85 from CHAIN as it is, and leaves CHAIN at the last ciphertext byte (R86). -/
theorem runProgram_cdec (k1 k2 : KeyField) (m : List Byte) {s : State} (hready : s.cmdReady = true) :
    (runProgram ((m.map fun x => Instr.cdec x k1 k2).map encode) s).1 =
      (chainDecryptFrom config k1 k2 s.chain m).map Response.ok ∧
    (runProgram ((m.map fun x => Instr.cdec x k1 k2).map encode) s).2.chain = m.getLastD s.chain := by
  have hrun := runProgram_passMessage (fun x => exec_cdec_eq_pipeDecrypt x k1 k2) m hready
  rwa [passMessage_pipeDecrypt] at hrun

/-- CSTART at the head of a program: what follows runs from the initialisation value (R80). -/
theorem runProgram_cstart (ws : List Cmd) {s : State} (hready : s.cmdReady = true) : runProgram (encode .cstart :: ws) s =
    (Response.ok IV :: (runProgram ws ((s.setChain IV).respond IV)).1, (runProgram ws ((s.setChain IV).respond IV)).2) :=
  runProgram_pipe (o := ⟨IV, IV⟩) hready (exec_cstart s) ws

/-- The expansion of ENCRYPT (R37) answers CSTART's response and `ChainEncrypt` of the message (R86). -/
theorem runProgram_encryptProgram (k1 k2 : KeyField) (m : List Byte) {s : State} (hready : s.cmdReady = true) :
    (runProgram ((encryptProgram k1 k2 m).map encode) s).1 = (IV :: chainEncrypt config m k1 k2).map Response.ok ∧
    (runProgram ((encryptProgram k1 k2 m).map encode) s).2.chain = (chainEncrypt config m k1 k2).getLastD IV := by
  obtain ⟨hresponses, hchain⟩ := runProgram_cenc k1 k2 m (s := (s.setChain IV).respond IV) hready
  rw [encryptProgram, List.map_cons, runProgram_cstart _ hready]
  exact ⟨congrArg _ hresponses, hchain⟩

/-- The expansion of DECRYPT (R37) answers CSTART's response and `ChainDecrypt` of the message (R86). -/
theorem runProgram_decryptProgram (k1 k2 : KeyField) (m : List Byte) {s : State} (hready : s.cmdReady = true) :
    (runProgram ((decryptProgram k1 k2 m).map encode) s).1 = (IV :: chainDecrypt config m k1 k2).map Response.ok ∧
    (runProgram ((decryptProgram k1 k2 m).map encode) s).2.chain = m.getLastD IV := by
  obtain ⟨hresponses, hchain⟩ := runProgram_cdec k1 k2 m (s := (s.setChain IV).respond IV) hready
  rw [decryptProgram, List.map_cons, runProgram_cstart _ hready]
  exact ⟨congrArg _ hresponses, hchain⟩

/-- The words that touch CHAIN are those of the three commands of the pipe (R10, R33). -/
theorem chainWord_eq_usesChain {w : Cmd} {m : Mnemonic} (hop : Mnemonic.ofOpcode (cmdOp w) = some m) :
    chainWord w = usesChain m := by
  rw [chainWord, ← Mnemonic.opcode_of_ofOpcode hop]
  cases m <;> rfl

theorem exists_ofOpcode_of_chainWord {w : Cmd} (hw : chainWord w = true) :
    ∃ m, Mnemonic.ofOpcode (cmdOp w) = some m ∧ usesChain m = true := by
  cases hop : Mnemonic.ofOpcode (cmdOp w) with
  | some m => exact ⟨m, rfl, (chainWord_eq_usesChain hop).symm.trans hw⟩
  | none =>
    simp only [chainWord, Bool.or_eq_true, beq_iff_eq] at hw
    obtain (hw | hw) | hw := hw <;> rw [hw] at hop <;> cases hop

/-- A word that does not touch CHAIN leaves it alone, an illegal one too (R10, R90). -/
theorem serve_chain_of_not_chainWord {w : Cmd} {s : State} (hready : s.cmdReady = true) (hw : chainWord w = false) :
    (serve (PortInput.present w) s).chain = s.chain := by
  cases hop : Mnemonic.ofOpcode (cmdOp w) with
  | none => rw [serve_reserved hready hop, State.presentFault_chain]
  | some m =>
    have hfree : usesChain m = false := (chainWord_eq_usesChain hop).symm.trans hw
    obtain ⟨c, r, hexec, hc⟩ := exec_shape (m.instr (cmdD w) (cmdA w) (cmdB w)) s
    rw [serve_command hready (decode_of_ofOpcode hop) hexec]
    exact hc (by rw [Mnemonic.mnemonic_instr, hfree])

/-- The commands of the pipe answer, among any others, as they do alone (R105): what stands between them leaves CHAIN alone. -/
theorem runProgram_filter_chainWord (ws : List Cmd) {s : State} (hready : s.cmdReady = true) :
    (((ws.zip (runProgram ws s).1).filter fun x => chainWord x.1) =
      (ws.filter chainWord).zip (runProgram (ws.filter chainWord) s).1) ∧
    (runProgram ws s).2.chain = (runProgram (ws.filter chainWord) s).2.chain := by
  induction ws generalizing s with
  | nil => exact ⟨rfl, rfl⟩
  | cons w ws ih =>
    obtain ⟨c, r, hserve, -⟩ := serve_present_cases w hready
    obtain ⟨hzip, hchain⟩ := ih (s := ⟨c, true, some r, s.inputs⟩) rfl
    cases hw : chainWord w with
    | true =>
      rw [List.filter_cons_of_pos hw, runProgram_cons, runProgram_cons, hserve]
      exact ⟨by simp [hw, hzip], hchain⟩
    | false =>
      have hkept : c = s.chain := by simpa only [hserve] using serve_chain_of_not_chainWord hready hw
      obtain ⟨hresponses, hend, -⟩ := session_agrees_of_chain ((ws.filter chainWord).map PortInput.present)
        (s := ⟨c, true, some r, s.inputs⟩) (t := s) hready.symm hkept
      rw [List.filter_cons_of_neg (by simp [hw]), runProgram_cons, hserve]
      refine ⟨?_, hchain.trans hend⟩
      calc _ = (ws.zip (runProgram ws ⟨c, true, some r, s.inputs⟩).1).filter fun x => chainWord x.1 := by simp [hw]
        _ = (ws.filter chainWord).zip (runProgram (ws.filter chainWord) s).1 := hzip.trans (congrArg _ hresponses)

/-- A program gets one response per command (R38). -/
theorem length_runProgram (ws : List Cmd) {s : State} (hready : s.cmdReady = true) :
    (runProgram ws s).1.length = ws.length := by
  obtain ⟨herr, -⟩ := oneResponsePerCommand ws s hready
  simpa using congrArg List.length herr

/-- The responses of the commands of the pipe are those of the commands of the pipe alone (R105). -/
theorem chainResponses_eq (ws : List Cmd) {s : State} (hready : s.cmdReady = true) :
    ((ws.zip (runProgram ws s).1).filter fun x => chainWord x.1).map Prod.snd = (runProgram (ws.filter chainWord) s).1 := by
  rw [(runProgram_filter_chainWord ws hready).1, List.map_snd_zip (length_runProgram _ hready).le]

/-- The opcode is among the bits by which a word of the pipe is read. -/
theorem cmdOp_chainBits (w : Cmd) : cmdOp (chainBits w) = cmdOp w := by
  rw [chainBits, cmdOp_and]
  split_ifs <;> rw [cmdOp_readMask, BitVec.and_allOnes]

/-- The bits by which a word of the pipe is read are those that its command reads (R33). -/
theorem chainBits_eq_and_readMask {w : Cmd} {m : Mnemonic} (hop : cmdOp w = m.opcode) (huses : usesChain m = true) :
    chainBits w = w &&& readMask m := by
  rw [chainBits, hop]
  cases m with
  | cstart | cenc | cdec => rfl
  | permIp | permIpinv | permPc1 | permPc2 | permE | permP | sbox0 | sbox1 | ksched | ffunc | fround | encb | decb =>
    cases huses

/-- Words of the pipe that differ in ignored bits only do the same (R31). -/
theorem serve_eq_of_chainBits {w v : Cmd} (hw : chainWord w = true) (hbits : chainBits w = chainBits v) {s : State}
    (hready : s.cmdReady = true) : serve (PortInput.present w) s = serve (PortInput.present v) s := by
  obtain ⟨m, hop, huses⟩ := exists_ofOpcode_of_chainWord hw
  have hopw : cmdOp w = m.opcode := (Mnemonic.opcode_of_ofOpcode hop).symm
  have hopv : cmdOp v = m.opcode := by rw [← hopw, ← cmdOp_chainBits v, ← hbits, cmdOp_chainBits]
  rw [chainBits_eq_and_readMask hopw huses, chainBits_eq_and_readMask hopv huses] at hbits
  have hdec := decode_of_ofOpcode hop
  obtain ⟨j, hdec', hsame⟩ := exec_eq_of_readMask (w' := v) hdec (by rwa [Mnemonic.mnemonic_instr])
  obtain ⟨c, r, hexec, -⟩ := exec_shape (m.instr (cmdD w) (cmdA w) (cmdB w)) s
  rw [serve_command hready hdec hexec, serve_command hready hdec' ((hsame s).trans hexec)]

/-- Programs of the pipe that differ in ignored bits only run alike (R31). -/
theorem runProgram_eq_of_chainBits {ws vs : List Cmd} (hws : ∀ w ∈ ws, chainWord w = true)
    (hbits : ws.map chainBits = vs.map chainBits) {s : State} (hready : s.cmdReady = true) :
    runProgram ws s = runProgram vs s := by
  induction ws generalizing vs s with
  | nil => rw [List.map_eq_nil_iff.1 hbits.symm]
  | cons w ws ih =>
    obtain ⟨hw, hws⟩ := List.forall_mem_cons.1 hws
    obtain ⟨v, vs, rfl, hv, hvs⟩ := List.map_eq_cons_iff.1 hbits.symm
    rw [runProgram_cons, runProgram_cons, serve_eq_of_chainBits hw hv.symm hready,
      ih hws hvs.symm (serve_present_cmdReady v hready)]

/-- A program whose words of the pipe are those of some commands, up to ignored bits: if the commands alone answer IV and then
some bytes, these are the result, no response of the pipe is a fault, and CHAIN ends as the commands leave it (R31, R105). -/
theorem pseudoResult_of_chainBits {ws : List Cmd} {is : List Instr} {s : State} {bytes : List Byte} {last : Byte}
    (hready : s.cmdReady = true)
    (hbits : (ws.filter chainWord).map chainBits = is.map fun i => chainBits (encode i))
    (halone : (runProgram (is.map encode) s).1 = (IV :: bytes).map Response.ok ∧
      (runProgram (is.map encode) s).2.chain = last) :
    let mine := ((ws.zip (runProgram ws s).1).filter fun x => chainWord x.1).map Prod.snd
    pseudoResult mine = bytes ∧ (∀ r ∈ mine, r.err = false) ∧ (runProgram ws s).2.chain = last := by
  obtain ⟨hresponses, hchain⟩ := halone
  have hsame : runProgram (ws.filter chainWord) s = runProgram (is.map encode) s :=
    runProgram_eq_of_chainBits (fun _ hw => (List.mem_filter.1 hw).2) (by rw [hbits, List.map_map]; rfl) hready
  rw [chainResponses_eq ws hready, (runProgram_filter_chainWord ws hready).2, hsame, hresponses]
  exact ⟨resultBytes_map_ok bytes, List.forall_mem_map.2 fun _ _ => rfl, hchain⟩

/-- Settles O44: the words of the pipe run as the expansion alone does, and the expansion runs the loops of R84 and R85. -/
theorem programsComputeTheChainedCipher : Obligations.ProgramsComputeTheChainedCipher := fun _ k1 k2 m _ hready =>
  ⟨fun hbits => pseudoResult_of_chainBits hready hbits (runProgram_encryptProgram k1 k2 m hready),
    fun hbits => pseudoResult_of_chainBits hready hbits (runProgram_decryptProgram k1 k2 m hready)⟩

/-- The start-up step after reset presents no response and leaves CHAIN at the initialisation value (R100, R102). -/
theorem session_quiet_reset (ps : List PortInput) :
    session (PortInput.quiet :: ps) State.reset = session ps State.reset.startUp := rfl

/-- Settles O48: after the start-up step the commands run the loops of R84 and R85 from the initialisation value. -/
theorem messageMayFollowResetDirectly : Obligations.MessageMayFollowResetDirectly := by
  intro k1 k2 m
  have hpresent (f : Byte → Instr) : session (m.map fun x => PortInput.present (encode (f x))) State.reset.startUp =
      runProgram ((m.map f).map encode) State.reset.startUp := by
    rw [runProgram, List.map_map, List.map_map]
    rfl
  obtain ⟨henc, -⟩ := runProgram_cenc k1 k2 m (s := State.reset.startUp) rfl
  obtain ⟨hdec, -⟩ := runProgram_cdec k1 k2 m (s := State.reset.startUp) rfl
  rw [session_quiet_reset, session_quiet_reset, hpresent, hpresent, henc, hdec]
  exact ⟨resultBytes_map_ok _, resultBytes_map_ok _⟩

/-- A CENC for each byte under its own keys (R88 item 2). -/
def cencProgram (m : List KeyedByte) : List Cmd := (m.map fun x => Instr.cenc x.byte x.k1 x.k2).map encode

/-- A CDEC for each ciphertext byte under the keys of the byte that it came from (R88 item 2). -/
def cdecProgram (m : List KeyedByte) (cs : List Byte) : List Cmd :=
  ((m.zip cs).map fun x => Instr.cdec x.2 x.1.k1 x.1.k2).map encode

theorem cencProgram_cons (x : KeyedByte) (m : List KeyedByte) :
    cencProgram (x :: m) = encode (.cenc x.byte x.k1 x.k2) :: cencProgram m := rfl

theorem cdecProgram_cons (x : KeyedByte) (m : List KeyedByte) (c : Byte) (cs : List Byte) :
    cdecProgram (x :: m) (c :: cs) = encode (.cdec c x.k1 x.k2) :: cdecProgram m cs := rfl

/-- From equal CHAIN the decryption of what the encryption answered keeps CHAIN equal to it byte by byte (R87, R88). -/
theorem cdecProgram_decrypts_cencProgram (m : List KeyedByte) {s t : State} (hs : s.cmdReady = true)
    (ht : t.cmdReady = true) (hchain : s.chain = t.chain) :
    let enc := runProgram (cencProgram m) s
    let dec := runProgram (cdecProgram m (resultBytes enc.1)) t
    resultBytes dec.1 = m.map KeyedByte.byte ∧ enc.2.chain = dec.2.chain := by
  induction m generalizing s t with
  | nil => exact ⟨rfl, hchain⟩
  | cons x m ih =>
    dsimp only
    rw [cencProgram_cons, runProgram_pipe hs (exec_cenc_eq_pipeEncrypt x.byte x.k1 x.k2 s), resultBytes_cons_ok,
      cdecProgram_cons, runProgram_pipe ht (exec_cdec_eq_pipeDecrypt _ x.k1 x.k2 t), ← hchain, pipeDecrypt_pipeEncrypt,
      resultBytes_cons_ok, List.map_cons, List.cons_inj_right]
    exact ih hs ht rfl

/-- Settles O49: both runs start at the initialisation value, and go on by `cdecProgram_decrypts_cencProgram`. -/
theorem perByteKeysRoundTrip : Obligations.PerByteKeysRoundTrip := by
  intro s m hready enc dec
  have henc : enc = _ := runProgram_cstart (cencProgram m) hready
  have hdec : dec = _ := runProgram_cstart (cdecProgram m (pseudoResult enc.1)) hready
  rw [hdec, henc, pseudoResult_cons, pseudoResult_cons]
  exact cdecProgram_decrypts_cencProgram m hready hready rfl

end Sys2Proof.Machine

/-! PROOFS. 60_exceptions.md: IllegalCommand (R90, R95), and that nothing else stops a step (R91, R99). -/

namespace Sys2Proof.Machine

open Sys2Proof.Claims

/-- An illegal word at the head of a session gets one response, and what follows runs from the state it was presented
in, with that response (R90, R95). -/
theorem session_present_reserved {s : State} {w : Cmd} (ps : List PortInput) (hready : s.cmdReady = true)
    (hop : reservedOp (cmdOp w) = true) : session (PortInput.present w :: ps) s =
      (Response.illegal :: (session ps s.presentFault).1, (session ps s.presentFault).2) := by
  rw [session, serve_reserved hready (reservedOp_eq_true_iff.1 hop)]
  rfl

/-- Settles O3: the state that presents the fault's response has the CHAIN and `cmd_ready` on which a session depends. -/
theorem illegalCommandIsPrecise : Obligations.IllegalCommandIsPrecise := by
  intro s w ps hready hop
  obtain ⟨hlater, hchain, -⟩ := session_agrees_of_chain ps s.presentFault_cmdReady s.presentFault_chain
  rw [session_present_reserved ps hready hop]
  exact ⟨congrArg (Response.illegal :: ·) hlater, hchain⟩

/-- Settles O4: by induction over the program, each word as `illegalCommandIsPrecise` says; it is ready as after any program. -/
theorem consecutiveIllegalCommandsEachAnswered : Obligations.ConsecutiveIllegalCommandsEachAnswered := by
  intro s ws hready hops
  induction ws with
  | nil => exact ⟨rfl, rfl, hready⟩
  | cons w ws ih =>
    obtain ⟨hop, hops⟩ := List.forall_mem_cons.1 hops
    obtain ⟨hresponses, hchain⟩ := illegalCommandIsPrecise s w (ws.map PortInput.present) hready hop
    obtain ⟨ihResponses, ihChain, -⟩ := ih hops
    exact ⟨hresponses.trans (congrArg (_ :: ·) ihResponses), hchain.trans ihChain, runProgram_cmdReady (w :: ws) hready⟩

theorem State.issues_eq_some_iff {s : State} {w : Cmd} :
    s.issues = some w ↔ s.portInput.rst = false ∧ s.cmdReady = true ∧ s.portInput.cmd = some w := by
  simp [State.issues]

/-- The step that issues a reserved opcode (R90), by what the state issues. -/
theorem step_of_issues_reserved {s : State} {w : Cmd} (hissues : s.issues = some w) (hop : reservedOp (cmdOp w) = true) :
    step s = .fault (.illegalCommand ⟨s.chain, s.cmdReady, some .illegal, s.inputs.tail⟩) := by
  obtain ⟨hrst, hready, hcmd⟩ := State.issues_eq_some_iff.1 hissues
  rw [step_of_command hrst hready hcmd, runCommand_of_reserved (reservedOp_eq_true_iff.1 hop)]
  rfl

/-- A step that issues no reserved opcode answers a next state, with its input taken (R91). -/
theorem step_of_not_issues_reserved {s : State} (h : ∀ w, s.issues = some w → reservedOp (cmdOp w) = false) :
    ∃ t, step s = .next t ∧ t.inputs = s.inputs.tail := by
  obtain ⟨-, hstep⟩ | ⟨-, -, hstep⟩ | ⟨-, -, -, hstep⟩ | ⟨w, i, -, -, -, -, hstep⟩ | ⟨w, hrst, hready, hcmd, hop, -⟩ :=
    step_cases s
  · exact ⟨_, hstep, rfl⟩
  · exact ⟨_, hstep, rfl⟩
  · exact ⟨_, hstep, rfl⟩
  · obtain ⟨c, r, hexec, -⟩ := exec_shape i s.takeInput
    exact ⟨_, hstep.trans hexec, rfl⟩
  · have hlegal := h w (State.issues_eq_some_iff.2 ⟨hrst, hready, hcmd⟩)
    cases hlegal.symm.trans (reservedOp_eq_true_iff.2 hop)

/-- Settles O5: by whether the step issues a reserved opcode. -/
theorem onlyReservedOpcodesFault : Obligations.OnlyReservedOpcodesFault := by
  intro s
  by_cases h : ∃ w, s.issues = some w ∧ reservedOp (cmdOp w) = true
  · obtain ⟨w, hissues, hop⟩ := h
    rw [step_of_issues_reserved hissues hop]
    refine ⟨fun f => ⟨fun hf => ?_, fun ⟨_, _, _, hf⟩ => hf ▸ rfl⟩, nofun⟩
    cases hf
    exact ⟨w, hissues, hop, rfl⟩
  · obtain ⟨t, hstep, -⟩ := step_of_not_issues_reserved fun w hissues =>
      Bool.eq_false_of_not_eq_true fun hop => h ⟨w, hissues, hop⟩
    rw [hstep]
    exact ⟨fun f => ⟨nofun, fun ⟨w, hissues, hop, _⟩ => absurd ⟨w, hissues, hop⟩ h⟩, nofun⟩

/-- The input of the coming step is legal, also where nothing more is planned. -/
theorem State.LegalInputs.portInput {s : State} (h : s.LegalInputs) : s.portInput.Legal := by
  cases hin : s.inputs with
  | nil => exact .inr (by simp [State.portInput, hin, PortInput.quiet])
  | cons p ps =>
    rw [State.portInput_of_inputs hin]
    exact h p (hin ▸ List.mem_cons_self)

/-- A word that is issued by a legal input has an opcode of the map (R34). -/
theorem PortInput.Legal.not_reservedOp {s : State} (h : s.portInput.Legal) {w : Cmd} (hissues : s.issues = some w) :
    reservedOp (cmdOp w) = false := by
  obtain ⟨hrst, -, hcmd⟩ := State.issues_eq_some_iff.1 hissues
  obtain hreset | hlegal := h
  · cases hrst.symm.trans hreset
  · rw [reservedOp_eq_isNone, Option.isNone_eq_false_iff]
    exact hlegal w hcmd

/-- A step under legal inputs answers a next state and leaves legal inputs (R91). -/
theorem step_of_legalInputs {s : State} (h : s.LegalInputs) : ∃ t, step s = .next t ∧ t.LegalInputs := by
  obtain ⟨t, hstep, hin⟩ := step_of_not_issues_reserved fun _ => h.portInput.not_reservedOp
  exact ⟨t, hstep, fun p hp => h p (List.mem_of_mem_tail (hin ▸ hp))⟩

/-- A run goes on from the next state that its first step answers. -/
theorem run_succ_of_next {M : Host.Core} {s t : M.State} (h : M.step s = .next t) (n : Nat) :
    M.run (n + 1) s = M.run n t := by
  rw [Host.Core.run, h]

/-- Settles O22: by induction over the steps, each by `step_of_legalInputs`. -/
theorem legalRunsNeverStop : Obligations.LegalRunsNeverStop := by
  intro n
  induction n with
  | zero => exact fun s h => ⟨s, rfl, h⟩
  | succ n ih =>
    intro s h
    obtain ⟨t, hstep, ht⟩ := step_of_legalInputs h
    rw [run_succ_of_next (M := core) hstep]
    exact ih t ht

end Sys2Proof.Machine

/-! PROOFS. 70_reset_and_hazards.md: reset and start-up (R100, R101), and commands that do not touch CHAIN (R105). -/

namespace Sys2Proof.Machine

open Sys2Proof.Claims

/-- Settles O15: `step_of_rst`, and `step_of_notReady` whether an input without reset is given or wanting. -/
theorem resetEdgeAndStartUp : Obligations.ResetEdgeAndStartUp := by
  refine ⟨fun s cmd rest hin => ?_, fun s cmd rest hready hin => ?_, fun s hready hin => ?_⟩
  · have hport : s.portInput = ⟨true, cmd⟩ := State.portInput_of_inputs hin
    rw [step_of_rst (congrArg PortInput.rst hport), State.takeInput_of_inputs hin]
    rfl
  · have hport : s.portInput = ⟨false, cmd⟩ := State.portInput_of_inputs hin
    rw [step_of_notReady (congrArg PortInput.rst hport) hready, State.takeInput_of_inputs hin]
    rfl
  · have hport : s.portInput = PortInput.quiet := by rw [State.portInput, hin, List.headD_nil]
    rw [step_of_notReady (congrArg PortInput.rst hport) hready, State.takeInput, hin]
    rfl

/-- The state after reset meets the invariant: it is in reset, and presents no response (R100, R101). -/
theorem State.reset_inv : State.reset.Inv := ⟨fun _ => ⟨State.reset_chain, State.reset_response⟩, nofun⟩

/-- Settles O16: the fields of `State.reset`, and the reset edge over whatever stood in the state. -/
theorem stateAfterReset : Obligations.StateAfterReset :=
  ⟨State.reset_chain, State.reset_response, State.reset_inv, fun s cmd =>
    step_of_rst (s := { s with inputs := [⟨true, cmd⟩] }) rfl⟩

/-- CSTART at the head of a session answers the initialisation value, whatever its fields hold (R80). -/
theorem session_present_cstart (b a : KeyField) (d : Byte) (ps : List PortInput) {s : State} (hready : s.cmdReady = true) :
    session (PortInput.present (word 0x60#8 b a d) :: ps) s =
      (Response.ok IV :: (session ps ((s.setChain IV).respond IV)).1, (session ps ((s.setChain IV).respond IV)).2) := by
  have hdec : decode (word 0x60#8 b a d) = .ok .cstart := decode_cmdWord b a d .cstart
  rw [session, serve_command hready hdec (exec_cstart s)]
  rfl

/-- A reset edge and the start-up step present no response; what follows runs from the state they leave (R100). -/
theorem session_reset_startUp (ps : List PortInput) (s : State) :
    session (PortInput.assertReset :: PortInput.quiet :: ps) s = session ps s.resetEdge.startUp := rfl

/-- Settles O21: CSTART and a reset both leave a ready datapath with CHAIN at the initialisation value, and later responses
depend on nothing else. -/
theorem cstartIsEquivalentToReset : Obligations.CstartIsEquivalentToReset := by
  intro s b a d ps hready
  obtain ⟨hlater, -⟩ := session_agrees_of_chain ps (s := (s.setChain IV).respond IV) (t := s.resetEdge.startUp) hready rfl
  rw [session_present_cstart b a d ps hready, session_reset_startUp]
  exact congrArg (_ :: ·) hlater

/-- Settles O45: by induction over the program, in `runProgram_filter_chainWord`. -/
theorem interleavedCommandsDoNotDisturbTheMessage : Obligations.InterleavedCommandsDoNotDisturbTheMessage :=
  fun ws _ hready => runProgram_filter_chainWord ws hready

end Sys2Proof.Machine
